-- ==== Sys2Proof/Word.lean ====
section
/-! DEFINITION. The value types of the block: bytes, byte strings and the register widths (00_scope.md R7). -/

namespace Sys2Proof

/-- A byte, an unsigned integer in `[0,255]` (R7). -/
abbrev Byte := BitVec 8

/-- A byte string: a finite sequence of bytes, first byte at index 0 (R7, R43). Every string of the spec is one (D5). -/
abbrev Bytes := List Byte

/-- The contents of a 16-bit register (R27, R29). -/
abbrev Half := BitVec 16

/-- The contents of a 32-bit register (R25, R28, R29). -/
abbrev Word := BitVec 32

end Sys2Proof
end

