-- ==== Sys2Proof/Syntax.lean ====
section
/-! DEFINITION. The operations: one constructor for each row of spec/opcode_table.json (30_encoding.md R60, R61). An
operation carries no operands of its own: they stand in the operand registers and buffers (R60). -/

namespace Sys2Proof

/-- The sixteen operation select codes: the nine operations (R60) and the seven reserved codes (R61). -/
inductive Instr where
  /-- SUM8, `OP = 0x1` (R102). -/
  | sum8
  /-- XOR8, `OP = 0x2` (R103). -/
  | xor8
  /-- IDNEXT, `OP = 0x3` (R112). -/
  | idnext
  /-- AENC, `OP = 0x4` (R121). -/
  | aenc
  /-- ADEC, `OP = 0x5` (R130). -/
  | adec
  /-- ESC, `OP = 0x6` (R151). -/
  | esc
  /-- UNESC, `OP = 0x7` (R153). -/
  | unesc
  /-- BENC, `OP = 0x8` (R161). -/
  | benc
  /-- BDEC, `OP = 0x9` (R170). -/
  | bdec
  /-- The reserved code `0x0` (R61). -/
  | reserved0
  /-- The reserved code `0xA` (R61). -/
  | reservedA
  /-- The reserved code `0xB` (R61). -/
  | reservedB
  /-- The reserved code `0xC` (R61). -/
  | reservedC
  /-- The reserved code `0xD` (R61). -/
  | reservedD
  /-- The reserved code `0xE` (R61). -/
  | reservedE
  /-- The reserved code `0xF` (R61). -/
  | reservedF
  deriving DecidableEq, Repr

end Sys2Proof
end

