-- ==== Sys2Proof/Decode.lean ====
section
/-! DEFINITION. Decoding and encoding the operation select code (30_encoding.md R60, R61, R62). -/

namespace Sys2Proof

/-- The operation that the 4-bit register `OP` selects (R60); the reserved codes decode to themselves (R61). Total:
a 4-bit number that is none of 0 to 14 is 15. -/
def decodeOp (op : BitVec 4) : Instr :=
  match op.toNat with
  | 0x0 => .reserved0
  | 0x1 => .sum8
  | 0x2 => .xor8
  | 0x3 => .idnext
  | 0x4 => .aenc
  | 0x5 => .adec
  | 0x6 => .esc
  | 0x7 => .unesc
  | 0x8 => .benc
  | 0x9 => .bdec
  | 0xA => .reservedA
  | 0xB => .reservedB
  | 0xC => .reservedC
  | 0xD => .reservedD
  | 0xE => .reservedE
  | _ => .reservedF

/-- Why bytes presented for `OP` are no operation select code. -/
inductive DecodeReject where
  /-- There is no byte. -/
  | empty
  /-- The byte does not fit the 4-bit register `OP` (R8, R60; DEDUCED, log 8). -/
  | wide (b : Byte)
  deriving DecidableEq, Repr

/-- The operation in the first byte of a byte string, with the rest: a request's code is one `OP` value (R62), bits 3:0
of its byte (R60). -/
def decode : Bytes → Except DecodeReject (Instr × Bytes)
  | [] => .error .empty
  | b :: rest => if b.toNat < 16 then .ok (decodeOp (BitVec.ofNat 4 b.toNat), rest) else .error (.wide b)

/-- The bytes of the number `w`, lowest first, as many as `nbits` takes (whole bytes). -/
def tableBytes : Nat → Nat → Bytes
  | 0, _ => []
  | n + 1, w => BitVec.ofNat 8 w :: tableBytes n (w / 256)

/-- What the decoder reads from a row of the opcode table: `OP` is bits 3:0 of the code's only byte, so no bit above
bit 7 may stand. -/
def decodeTableWord (nbits w : Nat) : Option Instr :=
  if w < 2 ^ (8 * ((nbits + 7) / 8)) then
    match decode (tableBytes ((nbits + 7) / 8) w) with
    | .ok (i, rest) => if rest.all (· == 0) then some i else none
    | .error _ => none
  else none

/-- The code of an operation: the column "OP (hex)" of R60, and R61. -/
def encode : Instr → BitVec 4
  | .reserved0 => 0x0
  | .sum8 => 0x1
  | .xor8 => 0x2
  | .idnext => 0x3
  | .aenc => 0x4
  | .adec => 0x5
  | .esc => 0x6
  | .unesc => 0x7
  | .benc => 0x8
  | .bdec => 0x9
  | .reservedA => 0xA
  | .reservedB => 0xB
  | .reservedC => 0xC
  | .reservedD => 0xD
  | .reservedE => 0xE
  | .reservedF => 0xF

/-- The byte that carries the code of an operation. -/
def encodeBytes (i : Instr) : Bytes := [BitVec.ofNat 8 (encode i).toNat]

end Sys2Proof
end

