-- ==== Sys2Proof/Config.lean ====
section
/-! DEFINITION. What an implementation fixes (00_scope.md R6) and the values the spec leaves open. -/

namespace Sys2Proof.Config

/-- The capacities of R6. The spec leaves their values OPEN (D4), so they are data that State carries and nothing
writes: a claim about every state is a claim about every choice of capacities (log 3). -/
structure Caps where
  /-- `MAXIN`: capacity in bytes of `IN`. -/
  maxIn : Nat
  /-- `MAXOUT`: capacity in bytes of `OUT`. -/
  maxOut : Nat
  /-- `MAXF`: number of fields `FLD` can hold. -/
  maxF : Nat
  /-- `MAXFLEN`: capacity in bytes of one field. -/
  maxFlen : Nat
  /-- `MAXPART`: number of parts ADEC can report. -/
  maxPart : Nat
  /-- `MAXPHN`: capacity in bytes of `PHN`. -/
  maxPhn : Nat
  deriving DecidableEq, Repr

/-- The constraints of R6 on the capacities, and `MAXOUT >= 2` from R102 (DEDUCED, log 4). -/
abbrev Caps.ok (c : Caps) : Prop :=
  14 ≤ c.maxIn ∧ 2 ≤ c.maxOut ∧ 19 ≤ c.maxF ∧ 1 ≤ c.maxFlen ∧ 21 ≤ c.maxPart ∧ 12 ≤ c.maxPhn

/-- The values R6 suggests. Only `State.reset` uses them (DESIGN CHOICE, log 3). -/
def Caps.suggested : Caps where
  maxIn := 4096
  maxOut := 8194
  maxF := 32
  maxFlen := 255
  maxPart := 64
  maxPhn := 32

/-- `BSJ_MAXBODY`, the largest BSJ body BENC accepts (R6, D24). -/
def bsjMaxBody : Nat := 65535

/-- The 32-bit registers to which a rule writes a number that can, for some capacities, be too large for them. The
width of `CLEN` and `ALEN` is the model's choice (log 17). -/
inductive WideReg where
  | INFO | TOTAL | INLEN | PHNLEN | NF | FLEN | OUTLEN | HEXLEN | CKTLEN | NP | PLEN | CLEN | ALEN
  deriving DecidableEq, Repr

/-- FREE VALUE: what a 32-bit register holds after a number that does not fit it was written. R8 requires that the
number fits and states no value otherwise (DESIGN CHOICE, log 5). -/
opaque unstatedWord : WideReg → Nat → Word

end Sys2Proof.Config
end

