-- ==== Sys2Proof/Machine/State.lean ====
section
/-! DEFINITION. The state of the block: the register `ID`, the operand side, the response, and the capacities (10_state.md
R20 to R34). A buffer is the byte string below its length register, a table the list of its elements; the length and
count registers are views (Machine/Memory.lean; log 2). -/

namespace Sys2Proof.Machine

open Sys2Proof.Config

/-- The operand registers, buffers and tables, written by the host only (R25, R30, R31). -/
structure Operands where
  /-- Operation select code (R60). -/
  OP : BitVec 4
  /-- Input buffer `IN[0 .. INLEN)`. -/
  IN : Bytes
  /-- Phone number buffer `PHN[0 .. PHNLEN)`. -/
  PHN : Bytes
  /-- Serial number operand, two's complement. -/
  SER : Word
  /-- Field table `FLD[0 .. NF)`. Nothing is held of elements at or above `NF` (DESIGN CHOICE, log 16). -/
  FLD : List Bytes
  deriving DecidableEq, Repr

/-- The response: every result register, buffer and table, written by the block only (R26 to R31). -/
structure Response where
  /-- Fatal result code, `0x00` = OK (R26). -/
  STATUS : Byte
  /-- Non-fatal condition flags (R27). -/
  FLAGS : Half
  /-- Detail of a fatal result (R28). -/
  INFO : Word
  /-- Result byte: checksum, or identifier issued. -/
  RB : Byte
  /-- Checksum computed over the covered range. -/
  CKC : Byte
  /-- Checksum byte received in a BSJ frame. -/
  CKR : Byte
  /-- ASCII length number. -/
  TOTAL : Word
  /-- Identifier byte of a received ASCII header. -/
  HDRID : Byte
  /-- Year of century of the timestamp. -/
  YY : Byte
  /-- Month. -/
  MO : Byte
  /-- Day. -/
  DD : Byte
  /-- Hour. -/
  HH : Byte
  /-- Minute. -/
  MI : Byte
  /-- Second. -/
  SS : Byte
  /-- BSJ message id. -/
  MSGID : Half
  /-- BSJ length word. -/
  LENW : Half
  /-- BSJ serial number. -/
  SERIAL : Half
  /-- Body flag byte of a received BSJ frame. -/
  BFLAG : Byte
  /-- Output buffer. -/
  OUT : Bytes
  /-- Hexadecimal form of a BSJ frame. -/
  OUTHEX : Bytes
  /-- Received checksum text. -/
  CKTXT : Bytes
  /-- The 6 phone bytes of a BSJ header, or empty. -/
  BCD : Bytes
  /-- The 12 phone digits, or empty. -/
  PHONE : Bytes
  /-- The comma-separated parts of an ASCII frame. -/
  PART : List Bytes
  /-- `mcc`, `mnc`, `lac`, `cellId`, or empty. -/
  CELL : List Bytes
  /-- `AD1`, `AD2`, `AD3`, `battery`, `AD5`, or empty. -/
  AD : List Bytes
  deriving DecidableEq, Repr

/-- The whole state. -/
structure State where
  /-- The identifier the next IDNEXT or AENC will issue: the only persistent register (R20). -/
  ID : Byte
  /-- What the host has written. -/
  req : Operands
  /-- What the last operation answered. -/
  resp : Response
  /-- THE MODEL'S OWN: the capacities of R6, written by nothing (log 3). -/
  caps : Caps
  deriving DecidableEq, Repr

/-- No fault exists. Nothing stops the block: a failure is a typed result in `STATUS`, a next state (R200, R204), and
every operation ends in its response (R211). No meaning raises a fault, so the type has no constructor: safe. -/
inductive Fault where
  deriving DecidableEq, Repr

/-- The reasons the model may decline an instruction. -/
inductive Refusal where
  /-- An instruction without a meaning yet, by its mnemonic. Raised by no arm of this model; safe. -/
  | notModelled (mnemonic : String)
  deriving DecidableEq, Repr

/-- Every operand register 0, every operand buffer and table empty (R25). -/
def Operands.cleared : Operands where
  OP := 0
  IN := []
  PHN := []
  SER := 0
  FLD := []

/-- Every result register 0, every result buffer and table empty (R26 to R31). Every operation's answer starts from it:
what an operation does not write it clears (R27, R29, R30). -/
def Response.cleared : Response where
  STATUS := 0
  FLAGS := 0
  INFO := 0
  RB := 0
  CKC := 0
  CKR := 0
  TOTAL := 0
  HDRID := 0
  YY := 0
  MO := 0
  DD := 0
  HH := 0
  MI := 0
  SS := 0
  MSGID := 0
  LENW := 0
  SERIAL := 0
  BFLAG := 0
  OUT := []
  OUTHEX := []
  CKTXT := []
  BCD := []
  PHONE := []
  PART := []
  CELL := []
  AD := []

/-- After reset: `ID = 0x41`, every other register 0, every buffer and table empty (R34, R240). The capacities are the
suggested ones (DESIGN CHOICE, log 3). -/
def State.reset : State where
  ID := 0x41
  req := Operands.cleared
  resp := Response.cleared
  caps := Caps.suggested

end Sys2Proof.Machine
end

