-- ==== Sys2Proof/Machine/Flags.lean ====
section
/-! DEFINITION. The register `FLAGS` (10_state.md R27): its named bits, how an operation's conditions make it, and the
checksum verdict (60_exceptions.md R202). -/

namespace Sys2Proof.Machine

/-- The conditions of R27. A condition an operation does not mention is written 0. -/
structure Conditions where
  /-- A received checksum was present. -/
  ckFound : Bool := false
  /-- The received checksum equals the recomputed one. -/
  ckValid : Bool := false
  /-- A received checksum was present and is not valid. -/
  ckMismatch : Bool := false
  /-- The timestamp did not parse. -/
  tsBad : Bool := false
  /-- The cell group is populated. -/
  cellOk : Bool := false
  /-- The analog group is populated. -/
  adOk : Bool := false
  /-- The BSJ length word equals the body length. -/
  lenOk : Bool := false
  /-- All phone nibbles are decimal. -/
  phoneOk : Bool := false
  /-- The ASCII header has its form. -/
  hdrOk : Bool := false
  deriving DecidableEq, Repr

/-- A bit of `FLAGS` at its position. -/
def flagBit (b : Bool) (pos : Nat) : Half := if b then BitVec.ofNat 16 (2 ^ pos) else 0

/-- All 16 bits of `FLAGS` from the conditions: bits 0 to 8 by name, 15:9 always 0 (R27). -/
def Conditions.flags (c : Conditions) : Half :=
  flagBit c.ckFound 0 ||| flagBit c.ckValid 1 ||| flagBit c.ckMismatch 2 ||| flagBit c.tsBad 3 |||
  flagBit c.cellOk 4 ||| flagBit c.adOk 5 ||| flagBit c.lenOk 6 ||| flagBit c.phoneOk 7 ||| flagBit c.hdrOk 8

/-- The three checksum conditions from "found" and "the texts agree": `CK_MISMATCH = CK_FOUND and not CK_VALID`
(R27, R202). -/
def checksumVerdict (found agree : Bool) : Conditions :=
  { ckFound := found, ckValid := found && agree, ckMismatch := found && !(found && agree) }

/-- `CK_FOUND`, bit 0. -/
def Response.CK_FOUND (r : Response) : Bool := r.FLAGS.getLsbD 0
/-- `CK_VALID`, bit 1. -/
def Response.CK_VALID (r : Response) : Bool := r.FLAGS.getLsbD 1
/-- `CK_MISMATCH`, bit 2. -/
def Response.CK_MISMATCH (r : Response) : Bool := r.FLAGS.getLsbD 2
/-- `TS_BAD`, bit 3. -/
def Response.TS_BAD (r : Response) : Bool := r.FLAGS.getLsbD 3
/-- `CELL_OK`, bit 4. -/
def Response.CELL_OK (r : Response) : Bool := r.FLAGS.getLsbD 4
/-- `AD_OK`, bit 5. -/
def Response.AD_OK (r : Response) : Bool := r.FLAGS.getLsbD 5
/-- `LEN_OK`, bit 6. -/
def Response.LEN_OK (r : Response) : Bool := r.FLAGS.getLsbD 6
/-- `PHONE_OK`, bit 7. -/
def Response.PHONE_OK (r : Response) : Bool := r.FLAGS.getLsbD 7
/-- `HDR_OK`, bit 8. -/
def Response.HDR_OK (r : Response) : Bool := r.FLAGS.getLsbD 8

end Sys2Proof.Machine
end

