-- ==== Sys2Proof/Request.lean ====
section
/-! DEFINITION. A request in the abstract form of 10_state.md R39: an operation with its operands, as the script notation
of 30_encoding.md R85 writes it. -/

namespace Sys2Proof

/-- `Request` of R39. Loading one writes the operand registers its operation names and `OP` (R85). -/
inductive Request where
  | sum8 (s : Bytes)
  | xor8 (s : Bytes)
  | idnext
  | aenc (fields : List Bytes)
  | adec (s : Bytes)
  | esc (s : Bytes)
  | unesc (s : Bytes)
  | benc (cmd phone : Bytes) (serial : Int)
  | bdec (s : Bytes)
  /-- An illegal `OP` code (R39, R61). -/
  | illegal (op : BitVec 4)
  deriving DecidableEq, Repr

end Sys2Proof
end

