-- ==== Sys2Proof/WellFormed.lean ====
section
/-! DEFINITION. Well-formedness. An operation has no fields, so every `Instr` is well formed (30_encoding.md R62); what can
be ill formed is a request's operands: a host cannot present more bytes than the capacities hold (60_exceptions.md R207). -/

namespace Sys2Proof

open Sys2Proof.Config

/-- Every operation select code is a well-formed request (R61, R62): nothing of an `Instr` can be out of range. -/
abbrev Instr.wf (_ : Instr) : Prop := True

/-- `n` bytes or elements can be counted by a 32-bit length register and stay within the capacity (R25). -/
abbrev fits (n capacity : Nat) : Prop := n ≤ capacity ∧ n < 2 ^ 32

/-- The bytes `IN` can hold: `INLEN <= MAXIN` (R25). -/
abbrev inFits (c : Caps) (s : Bytes) : Prop := fits s.length c.maxIn

/-- The bytes `PHN` can hold: `PHNLEN <= MAXPHN` (R25). -/
abbrev phnFits (c : Caps) (s : Bytes) : Prop := fits s.length c.maxPhn

/-- The fields `FLD` can hold: `NF <= MAXF` and each `FLEN[i] <= MAXFLEN` (R25). -/
abbrev fldFits (c : Caps) (fields : List Bytes) : Prop :=
  fits fields.length c.maxF ∧ ∀ f ∈ fields, fits f.length c.maxFlen

/-- The serials `SER` can hold: `SERW = 32`, two's complement (R6, R25, R39). -/
abbrev serFits (serial : Int) : Prop := -2 ^ 31 ≤ serial ∧ serial < 2 ^ 31

/-- A request the host can present (R25, R39, R207). An illegal request names a code that selects no operation (R61). -/
def Request.wf (c : Caps) : Request → Bool
  | .sum8 s => decide (inFits c s)
  | .xor8 s => decide (inFits c s)
  | .idnext => true
  | .aenc fields => decide (fldFits c fields)
  | .adec s => decide (inFits c s)
  | .esc s => decide (inFits c s)
  | .unesc s => decide (inFits c s)
  | .benc cmd phone serial => decide (inFits c cmd) && decide (phnFits c phone) && decide (serFits serial)
  | .bdec s => decide (inFits c s)
  | .illegal op => decide (op.toNat = 0 ∨ 0xA ≤ op.toNat)

end Sys2Proof
end

