-- ==== Sys2Proof/Machine/Memory.lean ====
section
/-! DEFINITION. The buffers and tables as byte spaces (20_memory.md R40, R52), the length and count registers over them
(10_state.md R25, R29 to R31), the named views of `PART` (R32), and the canonical form of memory. -/

namespace Sys2Proof.Machine

open Sys2Proof.Config

/-- The address spaces: each buffer and each table element is one of its own, with offsets from 0 (R40). -/
inductive Space where
  | IN | PHN | FLD (i : Nat)
  | OUT | OUTHEX | CKTXT | BCD | PHONE | PART (i : Nat) | CELL (k : Nat) | AD (k : Nat)
  deriving DecidableEq, Repr

/-- The content of a space: the bytes below its length. R31 is silent on a table element at or above the count, and R25
gives `FLEN[i]` for every `i < MAXF`: the model makes such an element empty, its length 0 (DESIGN CHOICE, log 16). -/
def State.space (s : State) : Space → Bytes
  | .IN => s.req.IN
  | .PHN => s.req.PHN
  | .FLD i => s.req.FLD.getD i []
  | .OUT => s.resp.OUT
  | .OUTHEX => s.resp.OUTHEX
  | .CKTXT => s.resp.CKTXT
  | .BCD => s.resp.BCD
  | .PHONE => s.resp.PHONE
  | .PART i => s.resp.PART.getD i []
  | .CELL k => s.resp.CELL.getD k []
  | .AD k => s.resp.AD.getD k []

/-- One byte of a space. An offset is valid only below the length (R40): above it there is no byte. -/
def State.readByte (s : State) (sp : Space) (off : Nat) : Option Byte := (s.space sp)[off]?

/-- `MemRead(B, off, n)`: the bytes `off .. off+n-1`; it requires `off+n <=` the length (R8). -/
def memRead (b : Bytes) (off n : Nat) : Option Bytes :=
  if off + n ≤ b.length then some ((b.drop off).take n) else none

/-- `MemWrite(B, off, n, s)` with `n = len(s)` (R8), within the current length (DEDUCED, log 2). -/
def memWrite (b : Bytes) (off : Nat) (src : Bytes) : Option Bytes :=
  if off + src.length ≤ b.length then some (b.take off ++ src ++ b.drop (off + src.length)) else none

/-- A space as the list of its (offset, byte) cells, offsets rising from 0. -/
def cellsFrom : Nat → Bytes → List Host.Cell
  | _, [] => []
  | n, b :: rest => (n, b) :: cellsFrom (n + 1) rest

/-- The cells of a space. -/
def State.cells (s : State) (sp : Space) : List Host.Cell := cellsFrom 0 (s.space sp)

/-- What a 32-bit register holds after the number `n` is written to it. The number must fit (R8); where it does not, the
value is free (log 5). -/
def reg32 (r : WideReg) (n : Nat) : Word := if n < 2 ^ 32 then BitVec.ofNat 32 n else unstatedWord r n

/-- `INLEN` (R25). -/
def State.INLEN (s : State) : Word := reg32 .INLEN s.req.IN.length
/-- `PHNLEN` (R25). -/
def State.PHNLEN (s : State) : Word := reg32 .PHNLEN s.req.PHN.length
/-- `NF` (R25). -/
def State.NF (s : State) : Word := reg32 .NF s.req.FLD.length
/-- `FLEN[i]` (R25); 0 for `NF <= i` (DESIGN CHOICE, log 16). -/
def State.FLEN (s : State) (i : Nat) : Word := reg32 .FLEN (s.space (.FLD i)).length
/-- `OUTLEN` (R30). -/
def State.OUTLEN (s : State) : Word := reg32 .OUTLEN s.resp.OUT.length
/-- `HEXLEN` (R30). -/
def State.HEXLEN (s : State) : Word := reg32 .HEXLEN s.resp.OUTHEX.length
/-- `CKTLEN` (R30). -/
def State.CKTLEN (s : State) : Word := reg32 .CKTLEN s.resp.CKTXT.length
/-- `NP` (R29, R31). -/
def State.NP (s : State) : Word := reg32 .NP s.resp.PART.length
/-- `PLEN[i]` (R31); 0 for `NP <= i` (DESIGN CHOICE, log 16). -/
def State.PLEN (s : State) (i : Nat) : Word := reg32 .PLEN (s.space (.PART i)).length
/-- `CLEN[k]` (R31). R31 gives no width: 32 bits, as for `PLEN` (DESIGN CHOICE, log 17). -/
def State.CLEN (s : State) (k : Nat) : Word := reg32 .CLEN (s.space (.CELL k)).length
/-- `ALEN[k]` (R31). R31 gives no width: 32 bits, as for `PLEN` (DESIGN CHOICE, log 17). -/
def State.ALEN (s : State) (k : Nat) : Word := reg32 .ALEN (s.space (.AD k)).length

/-- The names of the parts of a decoded ASCII frame, in the order of the exact wire form (R32, R66). -/
inductive PartName where
  | HDR | IMEI | CMD | EVENT | LAT | LON | TS | STAT | SATS | GSM | SPEED | DIR | HDOP | ALT | MILEAGE | RUNTIME
  | CELLRAW | PORT | ADRAW | EVINFO
  deriving DecidableEq, Repr

/-- The index in `PART` of a named part (R32). -/
def PartName.index : PartName → Nat
  | .HDR => 0
  | .IMEI => 1
  | .CMD => 2
  | .EVENT => 3
  | .LAT => 4
  | .LON => 5
  | .TS => 6
  | .STAT => 7
  | .SATS => 8
  | .GSM => 9
  | .SPEED => 10
  | .DIR => 11
  | .HDOP => 12
  | .ALT => 13
  | .MILEAGE => 14
  | .RUNTIME => 15
  | .CELLRAW => 16
  | .PORT => 17
  | .ADRAW => 18
  | .EVINFO => 19

/-- A named field of the decoded frame: absent when its index is at or above `NP` (R32, D18). -/
def Response.field (r : Response) (p : PartName) : Option Bytes := r.PART[p.index]?

/-- `TRAIL = PART[20 .. NP-1]` (R32). -/
def Response.TRAIL (r : Response) : List Bytes := r.PART.drop 20

/-- Every operand is within its capacity and its length register (R25). -/
abbrev Memory.operandsWf (c : Caps) (q : Operands) : Prop :=
  inFits c q.IN ∧ phnFits c q.PHN ∧ fldFits c q.FLD

/-- Every result buffer and table is within its capacity, and those of fixed length are whole or empty (R30, R31). -/
abbrev Memory.responseWf (c : Caps) (r : Response) : Prop :=
  r.OUT.length ≤ c.maxOut ∧ r.OUTHEX.length ≤ 2 * c.maxOut ∧ r.CKTXT.length ≤ c.maxIn ∧
  (r.BCD.length = 0 ∨ r.BCD.length = 6) ∧ (r.PHONE.length = 0 ∨ r.PHONE.length = 12) ∧
  r.PART.length ≤ c.maxPart ∧ (∀ p ∈ r.PART, p.length ≤ c.maxIn) ∧
  (r.CELL.length = 0 ∨ r.CELL.length = 4) ∧ (∀ p ∈ r.CELL, p.length ≤ c.maxIn) ∧
  (r.AD.length = 0 ∨ r.AD.length = 5) ∧ (∀ p ∈ r.AD, p.length ≤ c.maxIn)

/-- The form memory has in every state a host can bring about (R25, R30, R31). A byte string holds just the bytes below
the length, so two equal memories are equal data. -/
abbrev Memory.wf (s : State) : Prop :=
  s.caps.ok ∧ Memory.operandsWf s.caps s.req ∧ Memory.responseWf s.caps s.resp

end Sys2Proof.Machine
end

