-- ==== Sys2Proof/Machine/Operands.lean ====
section
/-! DEFINITION. What an operation reads: its operands are named by its code and stand in the operand registers and buffers
(20_memory.md R52; 10_state.md R25, R30, R31). There are no addressing modes. -/

namespace Sys2Proof.Machine

/-- `MemRead(IN, 0, INLEN)`. -/
def inBytes (s : State) : Bytes := s.req.IN

/-- `MemRead(PHN, 0, PHNLEN)`. -/
def phoneText (s : State) : Bytes := s.req.PHN

/-- `[ MemRead(FLD[i], 0, FLEN[i]) for i = 0 .. NF-1 ]`. -/
def fieldList (s : State) : List Bytes := s.req.FLD

/-- `int(SER)`: the two's-complement operand as an integer (R8 `sext`). -/
def serialInt (s : State) : Int := s.req.SER.toInt

end Sys2Proof.Machine
end

