-- ==== Sys2Proof/Machine/Ops.lean ====
section
/-! DEFINITION. The shared operations: renderings and byte-order helpers (00_scope.md R8), checksums (40_checksum.md),
identifier successor (41_identifier.md), escape transform (43_escape.md), and how an operation ends: with its answer or
with a fatal result (60_exceptions.md R204). -/

namespace Sys2Proof.Machine

open Sys2Proof.Config

/-! ### Byte order and renderings (R8) -/

/-- `be16(n)`: most significant byte first (R8, R44). -/
def be16 (n : Nat) : Bytes := [BitVec.ofNat 8 (n / 256), BitVec.ofNat 8 (n % 256)]

/-- `unbe16` of a two-byte string `hi lo` (R8, R44). -/
def unbe16 (hi lo : Byte) : Half := BitVec.ofNat 16 (hi.toNat * 256 + lo.toNat)

/-- An ASCII decimal digit, `0x30..0x39`. -/
def isDigit (b : Byte) : Bool := decide (0x30 ≤ b.toNat ∧ b.toNat ≤ 0x39)

/-- The value of an ASCII decimal digit. -/
def digitVal (b : Byte) : Nat := b.toNat - 0x30

/-- The ASCII decimal digit of a number below 10. -/
def decDigit (d : Nat) : Byte := BitVec.ofNat 8 (0x30 + d)

/-- `dec` by recursion on a fuel that bounds the number of digits. -/
def decFuel : Nat → Nat → Bytes
  | 0, _ => []
  | fuel + 1, n => if n < 10 then [decDigit n] else decFuel fuel (n / 10) ++ [decDigit (n % 10)]

/-- `dec(n)`: decimal digits, most significant first, no leading zero, `dec(0) = "0"` (R8, R46). -/
def dec (n : Nat) : Bytes := decFuel (n + 1) n

/-- The natural number whose decimal digits are given (R139): leading zeros allowed. -/
def decVal (digits : Bytes) : Nat := digits.foldl (fun v b => v * 10 + digitVal b) 0

/-- `HEXD = "0123456789ABCDEF"` (R8). -/
def hexDigits : Bytes :=
  [0x30, 0x31, 0x32, 0x33, 0x34, 0x35, 0x36, 0x37, 0x38, 0x39, 0x41, 0x42, 0x43, 0x44, 0x45, 0x46]

/-- `HEXD[n]`. -/
def hexDigit (n : Nat) : Byte := hexDigits.getD n 0

/-- `hex2(b)`: two uppercase hexadecimal digits, high nibble first (R8, R46, R105). -/
def hex2 (b : Byte) : Bytes := [hexDigit (b.toNat / 16), hexDigit (b.toNat % 16)]

/-- `hexstr(s)`: each byte by `hex2`, no separator (R8, R46, R165). -/
def hexstr : Bytes → Bytes
  | [] => []
  | b :: rest => hex2 b ++ hexstr rest

/-- `join(L, c)` (R8). -/
def join (c : Byte) : List Bytes → Bytes
  | [] => []
  | [x] => x
  | x :: y :: rest => x ++ c :: join c (y :: rest)

/-- `split(s, c)`: `k` separators give `k + 1` sub-strings, empty ones kept (R8, R132). -/
def split (c : Byte) : Bytes → List Bytes
  | [] => [[]]
  | b :: rest =>
    if b = c then [] :: split c rest
    else match split c rest with
      | [] => [[b]]
      | p :: ps => (b :: p) :: ps

/-! ### Checksums (R100, R101) and identifier successor (R111) -/

/-- `SUM8(s)`: the sum of the bytes modulo 256 (R100). -/
def sum8 (s : Bytes) : Byte := s.foldl (· + ·) 0

/-- `XOR8(s)`: the exclusive or of the bytes (R101). -/
def xor8 (s : Bytes) : Byte := s.foldl (· ^^^ ·) 0

/-- `adv(v)`: the next identifier in the cycle `0x41..0x7A`; `0x41` for every other value (R111, D7). -/
def adv (v : Byte) : Byte := if 0x41 ≤ v.toNat ∧ v.toNat < 0x7A then v + 1 else 0x41

/-! ### Escape transform (R75, R150, R152) -/

/-- `e(b)`: the escaped form of one byte (R150). -/
def escByte (b : Byte) : Bytes :=
  if b = 0x7E then [0x7D, 0x02] else if b = 0x7D then [0x7D, 0x01] else [b]

/-- `ESC(s)` (R150). -/
def escape : Bytes → Bytes
  | [] => []
  | b :: rest => escByte b ++ escape rest

/-- The scan of `UNESC` from index `i` on; it fails with the index of a `0x7D` that neither `0x01` nor `0x02` follows
(R152, D39). -/
def unescapeFrom : Nat → Bytes → Except Nat Bytes
  | _, [] => .ok []
  | i, [b] => if b = 0x7D then .error i else .ok [b]
  | i, b :: c :: rest =>
    if b = 0x7D then
      if c = 0x02 then (unescapeFrom (i + 2) rest).map (0x7E :: ·)
      else if c = 0x01 then (unescapeFrom (i + 2) rest).map (0x7D :: ·)
      else .error i
    else (unescapeFrom (i + 1) (c :: rest)).map (b :: ·)

/-- `UNESC(s)` (R152). -/
def unescape (s : Bytes) : Except Nat Bytes := unescapeFrom 0 s

/-! ### How an operation ends -/

/-- The fatal results of R201, each with what its `INFO` reports. -/
inductive Fatal where
  /-- `ParseError::TooFewFields`: ADEC, fewer than 16 parts. -/
  | tooFewFields (parts : Nat)
  /-- `EncodeError::InvalidPhoneNumber`: BENC, at the offset of the first bad byte, or 12. -/
  | invalidPhoneNumber (offset : Nat)
  /-- `EncodeError::InvalidSerial`: BENC, the raw `SER`. -/
  | invalidSerial (raw : Word)
  /-- `FramingError::UnescapedControlByte`: UNESC and BDEC, at an offset in `IN`. -/
  | unescapedControlByte (offset : Nat)
  /-- `FramingError::MissingFlag`: BDEC, with `INLEN`. -/
  | missingFlag (inlen : Nat)
  /-- `FramingError::InteriorFlag`: BDEC, at an offset in `IN`. -/
  | interiorFlag (offset : Nat)
  /-- `FramingError::Truncated`: BDEC, with the unescaped length. -/
  | truncated (length : Nat)
  /-- `EncodeError::BodyTooLong`: BENC, with the body length. -/
  | bodyTooLong (length : Nat)
  /-- `CapacityExceeded`: the size that did not fit. -/
  | capacityExceeded (size : Nat)
  /-- `IllegalOp`: the dispatcher, with `OP`. -/
  | illegalOp (op : BitVec 4)
  deriving DecidableEq, Repr

/-- `code(E)`, the value of `STATUS` (R201). -/
def Fatal.code : Fatal → Byte
  | .tooFewFields _ => 0x01
  | .invalidPhoneNumber _ => 0x04
  | .invalidSerial _ => 0x05
  | .unescapedControlByte _ => 0x06
  | .missingFlag _ => 0x07
  | .interiorFlag _ => 0x08
  | .truncated _ => 0x09
  | .bodyTooLong _ => 0x0A
  | .capacityExceeded _ => 0x0B
  | .illegalOp _ => 0x0F

/-- The value of `INFO` (R201). -/
def Fatal.info : Fatal → Word
  | .tooFewFields n => reg32 .INFO n
  | .invalidPhoneNumber k => reg32 .INFO k
  | .invalidSerial raw => raw
  | .unescapedControlByte i => reg32 .INFO i
  | .missingFlag n => reg32 .INFO n
  | .interiorFlag i => reg32 .INFO i
  | .truncated n => reg32 .INFO n
  | .bodyTooLong n => reg32 .INFO n
  | .capacityExceeded n => reg32 .INFO n
  | .illegalOp op => reg32 .INFO op.toNat

/-- The response of a fatal result: `STATUS` and `INFO`, everything else cleared (R204). -/
def fatalResponse (e : Fatal) : Response := { Response.cleared with STATUS := e.code, INFO := e.info }

/-- An operation's end: its whole response replaces the last one (R27, R29, R30, R245). `ID`, operands and capacities
stay. -/
def answer (r : Response) (s : State) : Host.Outcome State Fault Refusal := .next { s with resp := r }

/-- The end of an identifier-consuming operation: the response, and the advance of `ID` in the same step (R54). -/
def answerAdvancing (r : Response) (s : State) : Host.Outcome State Fault Refusal :=
  .next { s with resp := r, ID := adv s.ID }

/-- `raise E(info)`: taking a fatal result (R204). The operation's only effect is the response; `ID` and the operands
stay, no mode changes and no control is transferred. There is nothing to return from: the next operation starts as
after any other (R205). -/
def raiseFatal (e : Fatal) (s : State) : Host.Outcome State Fault Refusal := answer (fatalResponse e) s

end Sys2Proof.Machine
end

