-- ==== Sys2Proof/Machine/AsciiFrame.lean ====
section
/-! DEFINITION. The ASCII frame codec AENC and ADEC (42_ascii_frame.md; wire format in 30_encoding.md R63 to R70). -/

namespace Sys2Proof.Machine

open Sys2Proof.Config

/-! ### Encoder -/

/-- `body = "," ++ join(F, ",") ++ ",*"` (R65). -/
def asciiBody (fields : List Bytes) : Bytes := 0x2C :: join 0x2C fields ++ [0x2C, 0x2A]

/-- `totalchar = len(body) + 4` (R67). -/
def asciiTotal (fields : List Bytes) : Nat := (asciiBody fields).length + 4

/-- `header = "$$" ++ [id] ++ dec(totalchar)` (R64). -/
def asciiHeader (id : Byte) (fields : List Bytes) : Bytes := 0x24 :: 0x24 :: id :: dec (asciiTotal fields)

/-- The bytes the checksum covers, header through `*` (R68). -/
def asciiCovered (id : Byte) (fields : List Bytes) : Bytes := asciiHeader id fields ++ asciiBody fields

/-- The frame: header, body, checksum text, CRLF (R63, R121). -/
def asciiFrame (id : Byte) (fields : List Bytes) : Bytes :=
  asciiCovered id fields ++ hex2 (sum8 (asciiCovered id fields)) ++ [0x0D, 0x0A]

/-- AENC (R121). A frame that does not fit `OUT` is a fatal result and consumes no identifier (R122). -/
def execAenc (s : State) : Host.Outcome State Fault Refusal :=
  let fields := fieldList s
  let frame := asciiFrame s.ID fields
  if s.caps.maxOut < frame.length then raiseFatal (.capacityExceeded frame.length) s
  else answerAdvancing
    { Response.cleared with
      OUT := frame
      RB := s.ID
      CKC := sum8 (asciiCovered s.ID fields)
      TOTAL := reg32 .TOTAL (asciiTotal fields) } s

/-! ### Decoder -/

/-- Step 1, first half: one trailing CRLF pair is removed (R131, D12). -/
def stripCrlf (s : Bytes) : Bytes :=
  if s.drop (s.length - 2) = [0x0D, 0x0A] then s.take (s.length - 2) else s

/-- The text before and after the last `*`, or none when there is no `*` (R131). -/
def splitLastStar : Bytes → Option (Bytes × Bytes)
  | [] => none
  | b :: rest =>
    match splitLastStar rest with
    | some (before, after) => some (b :: before, after)
    | none => if b = 0x2A then some ([], rest) else none

/-- What step 1 finds in the input (R131). -/
structure Received where
  /-- A `*` exists. -/
  found : Bool
  /-- The checksum text, after the last `*`. -/
  cktxt : Bytes
  /-- The covered range, through that `*`. -/
  cov : Bytes
  /-- The field text, before that `*`. -/
  ftxt : Bytes
  deriving DecidableEq, Repr

/-- Step 1: strip the terminator, split off the checksum (R131). -/
def receive (s : Bytes) : Received :=
  match splitLastStar (stripCrlf s) with
  | some (before, after) => { found := true, cktxt := after, cov := before ++ [0x2A], ftxt := before }
  | none => { found := false, cktxt := [], cov := [], ftxt := stripCrlf s }

/-- The first `n` sub-parts of part `index`, all or nothing: the group is populated when the part exists and has at
least `n` sub-parts (R135, R136, D17). -/
def group (index n : Nat) (parts : List Bytes) : Option (List Bytes) :=
  match parts[index]? with
  | none => none
  | some part => if (split 0x7C part).length < n then none else some ((split 0x7C part).take n)

/-- `cellgroup` (R135). -/
def cellGroup (parts : List Bytes) : Option (List Bytes) := group 16 4 parts

/-- `adgroup` (R136). -/
def adGroup (parts : List Bytes) : Option (List Bytes) := group 18 5 parts

/-- `dim(yy, mo)`: days in the month (R138, D19; log 11). -/
def daysInMonth (yy mo : Nat) : Nat :=
  if mo = 2 then (if yy % 4 = 0 then 29 else 28)
  else if mo = 4 ∨ mo = 6 ∨ mo = 9 ∨ mo = 11 then 30
  else 31

/-- The six numbers of a timestamp. -/
structure Timestamp where
  yy : Nat
  mo : Nat
  dd : Nat
  hh : Nat
  mi : Nat
  ss : Nat
  deriving DecidableEq, Repr

/-- `n(k)`: the two-digit number at pair `k` (R137). -/
def pairVal (ts : Bytes) (k : Nat) : Nat := digitVal (ts.getD (2 * k) 0) * 10 + digitVal (ts.getD (2 * k + 1) 0)

/-- The range test of R137 (D19). -/
def Timestamp.inRange (t : Timestamp) : Bool :=
  decide (1 ≤ t.mo ∧ t.mo ≤ 12 ∧ 1 ≤ t.dd ∧ t.dd ≤ daysInMonth t.yy t.mo ∧ t.hh ≤ 23 ∧ t.mi ≤ 59 ∧ t.ss ≤ 59)

/-- `tsparse`: twelve digits in range, or none (R137). -/
def tsParse (ts : Bytes) : Option Timestamp :=
  if ts.length = 12 ∧ ts.all isDigit = true then
    let t : Timestamp :=
      { yy := pairVal ts 0, mo := pairVal ts 1, dd := pairVal ts 2, hh := pairVal ts 3, mi := pairVal ts 4, ss := pairVal ts 5 }
    if t.inRange then some t else none
  else none

/-- `hdrparse`: `"$$"`, one byte, one or more digits give that byte and the number (R139). -/
def hdrParse : Bytes → Option (Byte × Nat)
  | d1 :: d2 :: id :: digits =>
    if d1 = 0x24 ∧ d2 = 0x24 ∧ digits ≠ [] ∧ digits.all isDigit = true then some (id, decVal digits) else none
  | _ => none

/-- `TOTAL` of ADEC: the number when it is below `2^32`, else 0 (R139). -/
def totalOf (v : Nat) : Word := if v < 2 ^ 32 then BitVec.ofNat 32 v else 0

/-- The checksum ADEC recomputes: 0 when no `*` was found (R131, R133). -/
def asciiChecksum (f : Received) : Byte := if f.found then sum8 f.cov else 0

/-- The conditions of a non-fatal ADEC (R133, R135 to R137, R139). -/
def asciiConditions (f : Received) (parts : List Bytes) : Conditions :=
  { checksumVerdict f.found (f.cktxt == hex2 (asciiChecksum f)) with
    tsBad := (tsParse (parts.getD 6 [])).isNone
    cellOk := (cellGroup parts).isSome
    adOk := (adGroup parts).isSome
    hdrOk := (hdrParse (parts.getD 0 [])).isSome }

/-- A two-digit number of the timestamp, or 0 when it did not parse (R137). -/
def tsNumber (ts : Option Timestamp) (f : Timestamp → Nat) : Byte :=
  match ts with
  | some t => BitVec.ofNat 8 (f t)
  | none => 0

/-- The response of a non-fatal ADEC (R130, steps 3 and 4). -/
def asciiResponse (f : Received) (parts : List Bytes) : Response :=
  let ts := tsParse (parts.getD 6 [])
  let hdr := hdrParse (parts.getD 0 [])
  { Response.cleared with
    FLAGS := (asciiConditions f parts).flags
    CKC := asciiChecksum f
    CKTXT := f.cktxt
    PART := parts
    CELL := (cellGroup parts).getD []
    AD := (adGroup parts).getD []
    YY := tsNumber ts Timestamp.yy
    MO := tsNumber ts Timestamp.mo
    DD := tsNumber ts Timestamp.dd
    HH := tsNumber ts Timestamp.hh
    MI := tsNumber ts Timestamp.mi
    SS := tsNumber ts Timestamp.ss
    HDRID := (hdr.map (·.1)).getD 0
    TOTAL := totalOf ((hdr.map (·.2)).getD 0) }

/-- ADEC (R130): the two structural failures first (R132, R143, R208), then everything is reported. -/
def execAdec (s : State) : Host.Outcome State Fault Refusal :=
  let f := receive (inBytes s)
  let parts := split 0x2C f.ftxt
  if parts.length < 16 then raiseFatal (.tooFewFields parts.length) s
  else if s.caps.maxPart < parts.length then raiseFatal (.capacityExceeded parts.length) s
  else answer (asciiResponse f parts) s

end Sys2Proof.Machine
end

