-- ==== Sys2Proof/Machine/BsjFrame.lean ====
section
/-! DEFINITION. The binary BSJ frame codec BENC and BDEC (44_bsj_frame.md; wire format in 30_encoding.md R71 to R75). -/

namespace Sys2Proof.Machine

open Sys2Proof.Config

/-! ### Encoder -/

/-- The phone check: none when the text has at most 12 bytes, all digits; otherwise the `k` of R162 (log 6). -/
def phoneFault (phone : Bytes) : Option Nat :=
  match phone.findIdx? (fun b => !isDigit b) with
  | some k => some (min k 12)
  | none => if 12 < phone.length then some 12 else none

/-- The phone number left-padded with `0` to 12 digits (R161, R162). -/
def padPhone (phone : Bytes) : Bytes := List.replicate (12 - phone.length) 0x30 ++ phone

/-- Decimal digits packed two per byte, the left one in bits 7:4 (R45, D22; log 11). -/
def packBcd : Bytes → Bytes
  | hi :: lo :: rest => BitVec.ofNat 8 (digitVal hi * 16 + digitVal lo) :: packBcd rest
  | _ => []

/-- The BSJ body: the body flag byte `0x00`, then the command (R73). -/
def bsjBody (cmd : Bytes) : Bytes := 0x00 :: cmd

/-- The 12-byte BSJ header (R72). -/
def bsjHeader (cmd phone : Bytes) (serial : Nat) : Bytes :=
  [0x83, 0x00] ++ be16 (bsjBody cmd).length ++ packBcd (padPhone phone) ++ be16 serial

/-- The bytes the checksum covers: header and body, before escaping (R74). -/
def bsjCovered (cmd phone : Bytes) (serial : Nat) : Bytes := bsjHeader cmd phone serial ++ bsjBody cmd

/-- The frame: flag byte, escaped header, body and checksum, flag byte (R71). -/
def bsjFrame (cmd phone : Bytes) (serial : Nat) : Bytes :=
  0x7E :: escape (bsjCovered cmd phone serial ++ [xor8 (bsjCovered cmd phone serial)]) ++ [0x7E]

/-- The response of a BENC without a fatal result (R161, R165). -/
def bsjEncoded (cmd phone : Bytes) (serial : Nat) : Response :=
  { Response.cleared with
    OUT := bsjFrame cmd phone serial
    OUTHEX := hexstr (bsjFrame cmd phone serial)
    CKC := xor8 (bsjCovered cmd phone serial)
    MSGID := 0x8300
    LENW := BitVec.ofNat 16 (bsjBody cmd).length
    SERIAL := BitVec.ofNat 16 serial
    BCD := packBcd (padPhone phone)
    PHONE := padPhone phone }

/-- BENC (R161): phone, serial, body length, capacity, in this order (R166). -/
def execBenc (s : State) : Host.Outcome State Fault Refusal :=
  let cmd := inBytes s
  let phone := phoneText s
  let serial := serialInt s
  match phoneFault phone with
  | some k => raiseFatal (.invalidPhoneNumber k) s
  | none =>
    if serial < 0 ∨ 65535 < serial then raiseFatal (.invalidSerial s.req.SER) s
    else if bsjMaxBody < (bsjBody cmd).length then raiseFatal (.bodyTooLong (bsjBody cmd).length) s
    else if s.caps.maxOut < (bsjFrame cmd phone serial.toNat).length then
      raiseFatal (.capacityExceeded (bsjFrame cmd phone serial.toNat).length) s
    else answer (bsjEncoded cmd phone serial.toNat) s

/-! ### Decoder -/

/-- The 4-bit halves of the phone bytes, left digit first (R45, R170). -/
def nibbles : Bytes → List Nat
  | [] => []
  | b :: rest => b.toNat / 16 :: b.toNat % 16 :: nibbles rest

/-- The phone field `u[4..10)` (R72). -/
def bsjBcd (u : Bytes) : Bytes := (u.drop 4).take 6

/-- The body `u[12 .. m-1)` (R73, R174): cut by position. -/
def bsjBodyOf (u : Bytes) : Bytes := (u.drop 12).dropLast

/-- `unbe16(u[at .. at+2))`. -/
def bsjWord (u : Bytes) (at_ : Nat) : Half := unbe16 (u.getD at_ 0) (u.getD (at_ + 1) 0)

/-- All phone nibbles are decimal (R170). -/
def bsjPhoneOk (u : Bytes) : Bool := (nibbles (bsjBcd u)).all (fun n => decide (n ≤ 9))

/-- The conditions of a non-fatal BDEC (R170, R173, R174). -/
def bsjConditions (u : Bytes) : Conditions :=
  { checksumVerdict true (u.getLastD 0 == xor8 u.dropLast) with
    lenOk := (bsjWord u 2).toNat == (bsjBodyOf u).length
    phoneOk := bsjPhoneOk u }

/-- The response of a non-fatal BDEC, from the unescaped bytes (R170). -/
def bsjDecoded (u : Bytes) : Response :=
  { Response.cleared with
    FLAGS := (bsjConditions u).flags
    MSGID := bsjWord u 0
    LENW := bsjWord u 2
    SERIAL := bsjWord u 10
    BCD := bsjBcd u
    BFLAG := (bsjBodyOf u).headD 0
    OUT := (bsjBodyOf u).tail
    PHONE := if bsjPhoneOk u then (nibbles (bsjBcd u)).map decDigit else []
    CKR := u.getLastD 0
    CKC := xor8 u.dropLast }

/-- The bytes between the two flag bytes, `f[1 .. n-1)` (R170). -/
def bsjInner (f : Bytes) : Bytes := f.tail.dropLast

/-- BDEC (R170): flags, interior flag, escape, length, in this order (R208), then the capacity of `OUT` (R207; log 7). -/
def execBdec (s : State) : Host.Outcome State Fault Refusal :=
  let f := inBytes s
  if f.length < 2 ∨ f.head? ≠ some 0x7E ∨ f.getLast? ≠ some 0x7E then raiseFatal (.missingFlag f.length) s
  else match (bsjInner f).findIdx? (fun b => b == 0x7E) with
  | some j => raiseFatal (.interiorFlag (j + 1)) s
  | none =>
    match unescape (bsjInner f) with
    | .error i => raiseFatal (.unescapedControlByte (i + 1)) s
    | .ok u =>
      if u.length < 14 then raiseFatal (.truncated u.length) s
      else if s.caps.maxOut < (bsjBodyOf u).tail.length then
        raiseFatal (.capacityExceeded (bsjBodyOf u).tail.length) s
      else answer (bsjDecoded u) s

end Sys2Proof.Machine
end

