-- ==== Sys2Proof/Machine/Checksum.lean ====
section
/-! DEFINITION. The checksum operations SUM8 and XOR8 (40_checksum.md). -/

namespace Sys2Proof.Machine

/-- SUM8: the sum as byte and as text (R102). -/
def execSum8 (s : State) : Host.Outcome State Fault Refusal :=
  let c := sum8 (inBytes s)
  answer { Response.cleared with RB := c, CKC := c, OUT := hex2 c } s

/-- XOR8: the exclusive or, as byte only (R103). -/
def execXor8 (s : State) : Host.Outcome State Fault Refusal :=
  let c := xor8 (inBytes s)
  answer { Response.cleared with RB := c, CKC := c } s

end Sys2Proof.Machine
end

