-- ==== Sys2Proof/Machine/Escape.lean ====
section
/-! DEFINITION. The stand-alone escape operations ESC and UNESC (43_escape.md). -/

namespace Sys2Proof.Machine

/-- ESC: escapes the whole input (R151). -/
def execEsc (s : State) : Host.Outcome State Fault Refusal :=
  let o := escape (inBytes s)
  if s.caps.maxOut < o.length then raiseFatal (.capacityExceeded o.length) s
  else answer { Response.cleared with OUT := o } s

/-- UNESC (R153). `CapacityExceeded` only where the result does not fit `OUT` (R207; log 7). -/
def execUnesc (s : State) : Host.Outcome State Fault Refusal :=
  match unescape (inBytes s) with
  | .error i => raiseFatal (.unescapedControlByte i) s
  | .ok o =>
    if s.caps.maxOut < o.length then raiseFatal (.capacityExceeded o.length) s
    else answer { Response.cleared with OUT := o } s

end Sys2Proof.Machine
end

