-- ==== Sys2Proof/Machine/Identifier.lean ====
section
/-! DEFINITION. The identifier sequencer's operation IDNEXT (41_identifier.md). -/

namespace Sys2Proof.Machine

/-- IDNEXT: issues `ID`, then advances it (R112). -/
def execIdnext (s : State) : Host.Outcome State Fault Refusal :=
  answerAdvancing { Response.cleared with RB := s.ID } s

end Sys2Proof.Machine
end

