-- ==== Sys2Proof/Machine/Reserved.lean ====
section
/-! DEFINITION. The reserved operation codes `0x0` and `0xA` to `0xF`: each ends with the fatal result IllegalOp, whose
`INFO` is the code (30_encoding.md R61, D35). -/

namespace Sys2Proof.Machine

/-- The code `0x0` (R61). -/
def execReserved0 (s : State) : Host.Outcome State Fault Refusal := raiseFatal (.illegalOp 0x0) s

/-- The code `0xA` (R61). -/
def execReservedA (s : State) : Host.Outcome State Fault Refusal := raiseFatal (.illegalOp 0xA) s

/-- The code `0xB` (R61). -/
def execReservedB (s : State) : Host.Outcome State Fault Refusal := raiseFatal (.illegalOp 0xB) s

/-- The code `0xC` (R61). -/
def execReservedC (s : State) : Host.Outcome State Fault Refusal := raiseFatal (.illegalOp 0xC) s

/-- The code `0xD` (R61). -/
def execReservedD (s : State) : Host.Outcome State Fault Refusal := raiseFatal (.illegalOp 0xD) s

/-- The code `0xE` (R61). -/
def execReservedE (s : State) : Host.Outcome State Fault Refusal := raiseFatal (.illegalOp 0xE) s

/-- The code `0xF` (R61). -/
def execReservedF (s : State) : Host.Outcome State Fault Refusal := raiseFatal (.illegalOp 0xF) s

end Sys2Proof.Machine
end

