-- ==== Sys2Proof/Machine/Dispatch.lean ====
section
/-! DEFINITION. One arm per operation select code (30_encoding.md R60, R61). -/

namespace Sys2Proof.Machine

def exec (i : Instr) (s : State) : Host.Outcome State Fault Refusal :=
  match i with
  | .sum8 => Sys2Proof.Machine.execSum8 s
  | .xor8 => Sys2Proof.Machine.execXor8 s
  | .idnext => Sys2Proof.Machine.execIdnext s
  | .aenc => Sys2Proof.Machine.execAenc s
  | .adec => Sys2Proof.Machine.execAdec s
  | .esc => Sys2Proof.Machine.execEsc s
  | .unesc => Sys2Proof.Machine.execUnesc s
  | .benc => Sys2Proof.Machine.execBenc s
  | .bdec => Sys2Proof.Machine.execBdec s
  | .reserved0 => Sys2Proof.Machine.execReserved0 s
  | .reservedA => Sys2Proof.Machine.execReservedA s
  | .reservedB => Sys2Proof.Machine.execReservedB s
  | .reservedC => Sys2Proof.Machine.execReservedC s
  | .reservedD => Sys2Proof.Machine.execReservedD s
  | .reservedE => Sys2Proof.Machine.execReservedE s
  | .reservedF => Sys2Proof.Machine.execReservedF s

end Sys2Proof.Machine
end

