-- ==== Sys2Proof/Machine/Step.lean ====
section
/-! DEFINITION. One step: the host starts the operation that stands in `OP` with the operands as they stand
(20_memory.md R53, R58; log 1). The block fetches nothing (10_state.md R22). -/

namespace Sys2Proof.Machine

/-- The operation the register `OP` selects (R60). -/
def State.selected (s : State) : Instr := decodeOp s.req.OP

/-- One request, from start to response (R53). -/
def step (s : State) : Host.Outcome State Fault Refusal := exec s.selected s

/-- The code of a request written to `OP`: bits 3:0 of its word (R60). This is where the next step takes its operation
from; nothing else changes (log 1). -/
def State.withFetchWord (s : State) (_nbits w : Nat) : State :=
  { s with req := { s.req with OP := BitVec.ofNat 4 w } }

end Sys2Proof.Machine
end

