-- ==== Sys2Proof/Machine/HostPort.lean ====
section
/-! DEFINITION. What the outside world can do to the block: reset it (70_reset_and_hazards.md R240), write operands
(10_state.md R25, R30, R31), start an operation; and the request view (R39), scripts (30_encoding.md R86) and
pseudo-operations (R87) over these actions. None of it is a step: inputs land between steps only (R53, R59). -/

namespace Sys2Proof.Machine

/-- Reset of a block with its capacities (R240): everything else as R34 says. -/
def State.afterReset (s : State) : State := { State.reset with caps := s.caps }

/-- The host writes `OP` (R25). -/
def State.writeOp (s : State) (op : BitVec 4) : State := { s with req := { s.req with OP := op } }

/-- The host writes `SER` (R25). -/
def State.writeSer (s : State) (v : Word) : State := { s with req := { s.req with SER := v } }

/-- The host fills `IN` and sets `INLEN`; more than `MAXIN` bytes cannot be presented (R25, R207). -/
def State.loadIn (s : State) (b : Bytes) : Option State :=
  if inFits s.caps b then some { s with req := { s.req with IN := b } } else none

/-- The host fills `PHN` and sets `PHNLEN` (R25). -/
def State.loadPhn (s : State) (b : Bytes) : Option State :=
  if phnFits s.caps b then some { s with req := { s.req with PHN := b } } else none

/-- The host fills `FLD`, each `FLEN[i]`, and `NF` (R25, R31). Elements of an earlier, longer table do not stay above the new
`NF` (DESIGN CHOICE, log 16). -/
def State.loadFld (s : State) (fields : List Bytes) : Option State :=
  if fldFits s.caps fields then some { s with req := { s.req with FLD := fields } } else none

/-- The host overwrites bytes of an operand buffer in place (R8 `MemWrite`, R30); a result space has no write port
(R26 to R31). -/
def State.pokeOperand (s : State) (sp : Space) (off : Nat) (src : Bytes) : Option State :=
  match sp with
  | .IN => (memWrite s.req.IN off src).map (fun b => { s with req := { s.req with IN := b } })
  | .PHN => (memWrite s.req.PHN off src).map (fun b => { s with req := { s.req with PHN := b } })
  | .FLD i =>
    match s.req.FLD[i]? with
    | none => none
    | some f => (memWrite f off src).map (fun b => { s with req := { s.req with FLD := s.req.FLD.set i b } })
  | _ => none

/-- Everything the outside world can do between operations, and starting one. -/
inductive HostAction where
  | reset
  | writeOp (op : BitVec 4)
  | writeSer (v : Word)
  | loadIn (b : Bytes)
  | loadPhn (b : Bytes)
  | loadFld (fields : List Bytes)
  | pokeOperand (sp : Space) (off : Nat) (src : Bytes)
  | start
  deriving DecidableEq, Repr

/-- The next state of an outcome. -/
def nextOf (o : Host.Outcome State Fault Refusal) : Option State :=
  match o with
  | .next t => some t
  | .fault _ => none
  | .refused _ => none

/-- The effect of a host action; none where the host cannot do it. -/
def HostAction.apply (a : HostAction) (s : State) : Option State :=
  match a with
  | .reset => some s.afterReset
  | .writeOp op => some (s.writeOp op)
  | .writeSer v => some (s.writeSer v)
  | .loadIn b => s.loadIn b
  | .loadPhn b => s.loadPhn b
  | .loadFld fields => s.loadFld fields
  | .pokeOperand sp off src => s.pokeOperand sp off src
  | .start => nextOf (step s)

/-- The code of a request (R60). -/
def requestCode : Request → BitVec 4
  | .sum8 _ => 0x1
  | .xor8 _ => 0x2
  | .idnext => 0x3
  | .aenc _ => 0x4
  | .adec _ => 0x5
  | .esc _ => 0x6
  | .unesc _ => 0x7
  | .benc _ _ _ => 0x8
  | .bdec _ => 0x9
  | .illegal op => op

/-- The operand registers after a request's operands are loaded (R85): those it does not name keep their content (R246). -/
def requestOperands (q : Request) (old : Operands) : Operands :=
  match q with
  | .sum8 s => { old with OP := requestCode q, IN := s }
  | .xor8 s => { old with OP := requestCode q, IN := s }
  | .idnext => { old with OP := requestCode q }
  | .aenc fields => { old with OP := requestCode q, FLD := fields }
  | .adec s => { old with OP := requestCode q, IN := s }
  | .esc s => { old with OP := requestCode q, IN := s }
  | .unesc s => { old with OP := requestCode q, IN := s }
  | .benc cmd phone serial => { old with OP := requestCode q, IN := cmd, PHN := phone, SER := BitVec.ofInt 32 serial }
  | .bdec s => { old with OP := requestCode q, IN := s }
  | .illegal _ => { old with OP := requestCode q }

/-- The host loads a request; one that is not well formed cannot be presented (R25, R39). -/
def loadRequest (q : Request) (s : State) : Option State :=
  if q.wf s.caps then some { s with req := requestOperands q s.req } else none

/-- One request from loading to response (R39). -/
def serve (q : Request) (s : State) : Option State :=
  match loadRequest q s with
  | none => none
  | some s' => nextOf (step s')

/-- A script: requests one after the other; the responses in order and the last state (R86). -/
def runScript : List Request → State → Option (List Response × State)
  | [], s => some ([], s)
  | q :: rest, s =>
    match serve q s with
    | none => none
    | some t =>
      match runScript rest t with
      | none => none
      | some (rs, u) => some (t.resp :: rs, u)

/-- The identifiers a request consumed, by its response: one for IDNEXT, one for an AENC that built a frame (R54). -/
def issuedBy (q : Request) (r : Response) : List Byte :=
  match q with
  | .idnext => [r.RB]
  | .aenc _ => if r.STATUS = 0 then [r.RB] else []
  | _ => []

/-- The identifiers a script's requests consumed, in order (R54). -/
def issuedIds : List Request → List Response → List Byte
  | q :: qs, r :: rs => issuedBy q r ++ issuedIds qs rs
  | _, _ => []

/-- The operands of the pseudo-operation `AENC.STD` (R87), in its order. -/
structure StandardProfile where
  imei : Bytes
  cmd : Bytes
  event : Bytes
  lat : Bytes
  lon : Bytes
  ts : Bytes
  status : Bytes
  sats : Bytes
  gsm : Bytes
  speed : Bytes
  dir : Bytes
  hdop : Bytes
  alt : Bytes
  mileage : Bytes
  runtime : Bytes
  mcc : Bytes
  mnc : Bytes
  lac : Bytes
  cellId : Bytes
  port : Bytes
  ad1 : Bytes
  ad2 : Bytes
  ad3 : Bytes
  battery : Bytes
  ad5 : Bytes
  evinfo : Bytes
  deriving DecidableEq, Repr

/-- All 26 values, in the order of R87. -/
def StandardProfile.values (p : StandardProfile) : List Bytes :=
  [p.imei, p.cmd, p.event, p.lat, p.lon, p.ts, p.status, p.sats, p.gsm, p.speed, p.dir, p.hdop, p.alt, p.mileage,
   p.runtime, p.mcc, p.mnc, p.lac, p.cellId, p.port, p.ad1, p.ad2, p.ad3, p.battery, p.ad5, p.evinfo]

/-- The 19 fields of the standard profile: the composites joined by `|` (R66, R69, R87). -/
def standardFields (p : StandardProfile) : List Bytes :=
  [p.imei, p.cmd, p.event, p.lat, p.lon, p.ts, p.status, p.sats, p.gsm, p.speed, p.dir, p.hdop, p.alt, p.mileage,
   p.runtime, join 0x7C [p.mcc, p.mnc, p.lac, p.cellId], p.port, join 0x7C [p.ad1, p.ad2, p.ad3, p.battery, p.ad5],
   p.evinfo]

/-- `AENC.STD` (R87). -/
def aencStd (p : StandardProfile) : Request := .aenc (standardFields p)

/-- `IDSKIP n` (R87). -/
def idSkip (n : Nat) : List Request := List.replicate n .idnext

end Sys2Proof.Machine
end

