-- ==== Sys2Proof/Safety.lean ====
section
/-! DEFINITION. What holds in every state a host can bring about: the range of `ID` (10_state.md R21), the form of memory
(R25, R30, R31) and the form of a response (R26 to R29; 60_exceptions.md R201, R204). -/

namespace Sys2Proof.Machine

open Sys2Proof.Config

/-- `0x41 <= ID <= 0x7A` (R21). -/
abbrev IdInRange (s : State) : Prop := 0x41 ≤ s.ID.toNat ∧ s.ID.toNat ≤ 0x7A

/-- The values `STATUS` takes (R201). -/
def statusCodes : List Byte := [0x00, 0x01, 0x04, 0x05, 0x06, 0x07, 0x08, 0x09, 0x0A, 0x0B, 0x0F]

/-- The form of a response: a code of R201; after OK no `INFO` (R28); after a fatal result nothing but `STATUS` and `INFO`
(R204); the reserved flags 0 and the three-state checksum verdict (R27). -/
abbrev ResponseForm (r : Response) : Prop :=
  r.STATUS ∈ statusCodes ∧ (r.STATUS = 0 → r.INFO = 0) ∧
  (r.STATUS ≠ 0 → r = { Response.cleared with STATUS := r.STATUS, INFO := r.INFO }) ∧
  r.FLAGS.toNat < 2 ^ 9 ∧ (r.CK_VALID = true → r.CK_FOUND = true) ∧
  r.CK_MISMATCH = (r.CK_FOUND && !r.CK_VALID)

/-- The invariant of the block. -/
abbrev Inv (s : State) : Prop := IdInRange s ∧ Memory.wf s ∧ ResponseForm s.resp

/-- The states a host can bring about: reset of a block with any legal capacities, then host actions in any order (R53,
R55, R59). -/
inductive Reachable : State → Prop
  | ofReset (c : Caps) (h : c.ok) : Reachable { State.reset with caps := c }
  | ofAction (s t : State) (a : HostAction) (hs : Reachable s) (h : a.apply s = some t) : Reachable t

end Sys2Proof.Machine
end

