-- ==== Sys2Proof/Certificates/Slice0/Obligations.lean ====
section
/-! DEFINITION. What is claimed of the machine. The first part says the spec's notions again, without the model's own
functions (sums and exclusive ors by number, decimals by their digits, escaping by its code table); the obligations follow,
each with the rule it comes from. -/

namespace Sys2Proof.Claims

open Sys2Proof.Config Sys2Proof.Machine

/-! ### The spec's notions -/

/-- The hexadecimal digit of a number below 16, uppercase (00_scope.md R8). -/
def hexChar (n : Nat) : Byte := if n < 10 then BitVec.ofNat 8 (0x30 + n) else BitVec.ofNat 8 (0x41 + (n - 10))

/-- Two uppercase hexadecimal digits, high nibble first (R8). -/
def hexPair (b : Byte) : Bytes := [hexChar (b.toNat / 16), hexChar (b.toNat % 16)]

/-- `c` is the sum of the bytes modulo 256 (40_checksum.md R100). -/
def IsByteSum (c : Byte) (s : Bytes) : Prop := c.toNat = (s.map BitVec.toNat).sum % 256

/-- Bit by bit, `c` tells whether an odd number of the bytes has that bit (R101). -/
def IsByteXor (c : Byte) (s : Bytes) : Prop := ∀ k < 8, c.getLsbD k = decide (s.countP (fun b => b.getLsbD k) % 2 = 1)

/-- The ASCII digit of a number below 10. -/
def ascii (d : Nat) : Byte := BitVec.ofNat 8 (0x30 + d)

/-- `text` is the decimal rendering of `n`: digits, most significant first, no leading zero, `"0"` for 0 (R8). -/
def IsDecimal (text : Bytes) (n : Nat) : Prop :=
  ∃ ds : List Nat, ds ≠ [] ∧ (∀ d ∈ ds, d < 10) ∧ (ds.head? = some 0 → ds = [0]) ∧
    ds.foldl (fun v d => 10 * v + d) 0 = n ∧ text = ds.map ascii

/-- `v'` is the identifier after `v` in the cycle `0x41 .. 0x7A` (41_identifier.md R110, R111); nothing is said of a `v`
outside it. -/
def NextInCycle (v v' : Byte) : Prop :=
  (0x41 ≤ v.toNat ∧ v.toNat < 0x7A → v'.toNat = v.toNat + 1) ∧ (v.toNat = 0x7A → v' = 0x41)

/-- The escape code table, byte by byte (30_encoding.md R75, 43_escape.md R150). -/
def escaped (s : Bytes) : Bytes :=
  s.flatMap (fun b => if b = 0x7E then [0x7D, 0x02] else if b = 0x7D then [0x7D, 0x01] else [b])

/-- `r` is a sequence of plain bytes and of the two escape pairs, and stands for `o` (R152). -/
inductive Unescapes : Bytes → Bytes → Prop
  | nil : Unescapes [] []
  | plain (b : Byte) (r o : Bytes) : b ≠ 0x7D → Unescapes r o → Unescapes (b :: r) (b :: o)
  | flag (r o : Bytes) : Unescapes r o → Unescapes (0x7D :: 0x02 :: r) (0x7E :: o)
  | control (r o : Bytes) : Unescapes r o → Unescapes (0x7D :: 0x01 :: r) (0x7D :: o)

/-- The scan of `r` stops at offset `i`: before it stand whole codes, at it a `0x7D` that neither `0x01` nor `0x02`
follows (R152). -/
def StopsAt (r : Bytes) (i : Nat) : Prop :=
  ∃ p q o, r = p ++ 0x7D :: q ∧ p.length = i ∧ Unescapes p o ∧ q.head? ≠ some 0x01 ∧ q.head? ≠ some 0x02

/-- Operation `i` ends with a fatal result: `STATUS = code`, `INFO = n` where `n` fits 32 bits (log 5), every other result cleared;
`ID`, the operands and the capacities are as before (60_exceptions.md R204). -/
def EndsFatally (i : Instr) (s : State) (code : Byte) (n : Nat) : Prop :=
  ∃ w : Word, (n < 2 ^ 32 → w.toNat = n) ∧
    exec i s = .next { s with resp := { Response.cleared with STATUS := code, INFO := w } }

/-- `body = "," ++ join(F, ",") ++ ",*"` (30_encoding.md R65). -/
def bodyOf (fields : List Bytes) : Bytes := [0x2C] ++ List.intercalate [0x2C] fields ++ [0x2C, 0x2A]

/-- `frame` is the ASCII frame of the fields with the identifier `id`, and `ck` its checksum (R63 to R68). -/
def IsAsciiFrame (id : Byte) (fields : List Bytes) (frame : Bytes) (ck : Byte) : Prop :=
  ∃ len, IsDecimal len ((bodyOf fields).length + 4) ∧
    IsByteSum ck ([0x24, 0x24, id] ++ len ++ bodyOf fields) ∧
    frame = [0x24, 0x24, id] ++ len ++ bodyOf fields ++ hexPair ck ++ [0x0D, 0x0A]

/-- `*` and the checksum text, when there is one (R131). -/
def starText : Option Bytes → Bytes
  | some t => 0x2A :: t
  | none => []

/-- The exact wire form of the standard profile (R63): `$$<id><len>,<imei>,...,<eventInfo>,*<CC>` CRLF. -/
def wireForm (id : Byte) (len : Bytes) (p : StandardProfile) (cc : Bytes) : Bytes :=
  List.flatten [[0x24, 0x24, id], len, [0x2C], p.imei, [0x2C], p.cmd, [0x2C], p.event, [0x2C], p.lat, [0x2C], p.lon, [0x2C],
    p.ts, [0x2C], p.status, [0x2C], p.sats, [0x2C], p.gsm, [0x2C], p.speed, [0x2C], p.dir, [0x2C], p.hdop, [0x2C], p.alt,
    [0x2C], p.mileage, [0x2C], p.runtime, [0x2C], p.mcc, [0x7C], p.mnc, [0x7C], p.lac, [0x7C], p.cellId, [0x2C], p.port,
    [0x2C], p.ad1, [0x7C], p.ad2, [0x7C], p.ad3, [0x7C], p.battery, [0x7C], p.ad5, [0x2C], p.evinfo, [0x2C, 0x2A], cc,
    [0x0D, 0x0A]]

/-- A received text: parts joined by commas, then `*` and a checksum text or not, then CRLF or not (R131, R132). -/
def asciiText (parts : List Bytes) (ck : Option Bytes) (crlf : Bool) : Bytes :=
  List.intercalate [0x2C] parts ++ starText ck ++ (if crlf then [0x0D, 0x0A] else [])

/-- No `*` stands after the one that opens the checksum text; without a checksum text there is none (R131). -/
def NoLaterStar (parts : List Bytes) : Option Bytes → Prop
  | some t => 0x2A ∉ t
  | none => ∀ p ∈ parts, 0x2A ∉ p

/-- ADEC's reading of `b`: the parts hold no comma, the checksum text stands after the last `*`, one final CRLF is taken
off whenever there is one (42_ascii_frame.md R131, R132). -/
structure ReadsAs (b : Bytes) (parts : List Bytes) (ck : Option Bytes) (crlf : Bool) : Prop where
  text : b = asciiText parts ck crlf
  nonempty : parts ≠ []
  noComma : ∀ p ∈ parts, 0x2C ∉ p
  lastStar : NoLaterStar parts ck
  oneCrlf : crlf = false → ¬ [0x0D, 0x0A] <:+ b

/-- ADEC's input in state `s` reads as these parts and this checksum text. -/
def AdecReads (s : State) (parts : List Bytes) (ck : Option Bytes) : Prop := ∃ crlf, ReadsAs s.req.IN parts ck crlf

/-- ADEC's input reads as these parts, and their number is one ADEC accepts (R132, R143). -/
def AdecAccepts (s : State) (parts : List Bytes) (ck : Option Bytes) : Prop :=
  AdecReads s parts ck ∧ 16 ≤ parts.length ∧ parts.length ≤ s.caps.maxPart

/-- `subs` are the `|`-separated sub-parts of `p` (R135). -/
def SubParts (p : Bytes) (subs : List Bytes) : Prop :=
  subs ≠ [] ∧ (∀ x ∈ subs, 0x7C ∉ x) ∧ p = List.intercalate [0x7C] subs

/-- `tsText ds` for twelve digits: the timestamp's digit pairs as numbers (R137). -/
def pair (ds : List Nat) (k : Nat) : Nat := ds.getD (2 * k) 0 * 10 + ds.getD (2 * k + 1) 0

/-- The days of a month: the calendar's table, and one more in February of a year divisible by 4 (R138). -/
def monthDays (yy mo : Nat) : Nat :=
  [31, 28, 31, 30, 31, 30, 31, 31, 30, 31, 30, 31].getD (mo - 1) 0 + (if mo = 2 ∧ yy % 4 = 0 then 1 else 0)

/-- The range test of a timestamp (R137). -/
def dateInRange (ds : List Nat) : Prop :=
  1 ≤ pair ds 1 ∧ pair ds 1 ≤ 12 ∧ 1 ≤ pair ds 2 ∧ pair ds 2 ≤ monthDays (pair ds 0) (pair ds 1) ∧
  pair ds 3 ≤ 23 ∧ pair ds 4 ≤ 59 ∧ pair ds 5 ≤ 59

/-- Twelve decimal digits in range (R137). -/
def GoodTimestamp (ts : Bytes) (ds : List Nat) : Prop :=
  ds.length = 12 ∧ (∀ d ∈ ds, d < 10) ∧ ts = ds.map ascii ∧ dateInRange ds

/-- A header of the form `"$$"`, one byte, one or more decimal digits (R139). -/
def GoodHeader (h : Bytes) (id : Byte) (ds : List Nat) : Prop :=
  ds ≠ [] ∧ (∀ d ∈ ds, d < 10) ∧ h = [0x24, 0x24, id] ++ ds.map ascii

/-- Twelve phone digits, padded with zeros on the left (44_bsj_frame.md R162). -/
def padded (d : List Nat) : List Nat := List.replicate (12 - d.length) 0 ++ d

/-- Two digits per byte, the left digit in bits 7:4 (20_memory.md R45). -/
def bcdOf (p : List Nat) : Bytes :=
  (List.range 6).map (fun j => BitVec.ofNat 8 (p.getD (2 * j) 0 * 16 + p.getD (2 * j + 1) 0))

/-- Header and body of a BSJ frame before escaping (30_encoding.md R72, R73). -/
def bsjUnescaped (cmd : Bytes) (phone : List Nat) (serial : Nat) : Bytes :=
  [0x83, 0x00, BitVec.ofNat 8 ((cmd.length + 1) / 256), BitVec.ofNat 8 ((cmd.length + 1) % 256)] ++
  bcdOf (padded phone) ++ [BitVec.ofNat 8 (serial / 256), BitVec.ofNat 8 (serial % 256), 0x00] ++ cmd

/-- The frame on the wire (R71, R74). -/
def bsjWire (cmd : Bytes) (phone : List Nat) (serial : Nat) (ck : Byte) : Bytes :=
  [0x7E] ++ escaped (bsjUnescaped cmd phone serial ++ [ck]) ++ [0x7E]

/-- A phone operand of at most 12 decimal digits (R162). -/
def PhoneDigits (phn : Bytes) (phone : List Nat) : Prop :=
  phn = phone.map ascii ∧ phone.length ≤ 12 ∧ ∀ d ∈ phone, d < 10

/-- `SER` holds a serial number in range (R163). -/
def SerialIs (s : State) (serial : Nat) : Prop := s.req.SER.toInt = serial ∧ serial ≤ 65535

/-- What BENC accepts, but for the capacity of `OUT` (R161 to R164). -/
def BencAccepts (s : State) (phone : List Nat) (serial : Nat) : Prop :=
  PhoneDigits s.req.PHN phone ∧ SerialIs s serial ∧ s.req.IN.length + 1 ≤ 65535

/-- BDEC's input is `inner` between two flag bytes, without a flag byte inside (R170, R171). -/
def Framed (f inner : Bytes) : Prop := f = [0x7E] ++ inner ++ [0x7E] ∧ 0x7E ∉ inner

/-- The unescaped bytes of a BSJ frame by position (30_encoding.md R72, R73, R74). -/
structure Layout where
  m1 : Byte
  m0 : Byte
  l1 : Byte
  l0 : Byte
  bcd : Bytes
  s1 : Byte
  s0 : Byte
  bflag : Byte
  payload : Bytes
  ck : Byte

/-- All bytes but the checksum byte. -/
def Layout.covered (x : Layout) : Bytes := [x.m1, x.m0, x.l1, x.l0] ++ x.bcd ++ [x.s1, x.s0, x.bflag] ++ x.payload

/-- All bytes. -/
def Layout.bytes (x : Layout) : Bytes := x.covered ++ [x.ck]

/-- All nibbles of the phone bytes are decimal. -/
def decimalNibbles (bcd : Bytes) : Bool := bcd.all (fun b => decide (b.toNat / 16 ≤ 9) && decide (b.toNat % 16 ≤ 9))

/-- The machine after the host has put the last answer's `OUT` into `IN`. -/
def feedBack (t : State) : State := { t with req := { t.req with IN := t.resp.OUT } }

/-- The operations that consume an identifier (41_identifier.md R116). -/
def consumes (i : Instr) : Bool := i == .idnext || i == .aenc

/-- The spaces the host writes and the block never does (10_state.md R30, R31). -/
def operandSpace : Space → Bool
  | .IN | .PHN | .FLD _ => true
  | _ => false

/-- The result buffers and tables an operation fills (R30, R31, R33). -/
def fills : Instr → Space → Bool
  | .sum8, .OUT | .aenc, .OUT | .esc, .OUT | .unesc, .OUT | .benc, .OUT | .bdec, .OUT => true
  | .benc, .OUTHEX => true
  | .adec, .CKTXT | .adec, .PART _ | .adec, .CELL _ | .adec, .AD _ => true
  | .benc, .BCD | .bdec, .BCD | .benc, .PHONE | .bdec, .PHONE => true
  | _, _ => false

/-- The fatal codes each operation can end with (60_exceptions.md R203). -/
def fatalCodes : Instr → List Byte
  | .sum8 | .xor8 | .idnext => []
  | .aenc | .esc => [0x0B]
  | .adec => [0x01, 0x0B]
  | .unesc => [0x06, 0x0B]
  | .benc => [0x04, 0x05, 0x0A, 0x0B]
  | .bdec => [0x07, 0x08, 0x06, 0x09, 0x0B]
  | _ => [0x0F]

/-- The bits of `FLAGS` each operation can set (R203). -/
def flagMask : Instr → Half
  | .adec => 0x013F
  | .bdec => 0x00C7
  | _ => 0

/-- The two states agree on what operation `i` reads (10_state.md R33), and on the capacities. -/
def agreeOnOperands (i : Instr) (s s' : State) : Prop :=
  s.caps = s'.caps ∧
  match i with
  | .sum8 | .xor8 | .adec | .esc | .unesc | .bdec => s.req.IN = s'.req.IN
  | .idnext => s.ID = s'.ID
  | .aenc => s.ID = s'.ID ∧ s.req.FLD = s'.req.FLD
  | .benc => s.req.IN = s'.req.IN ∧ s.req.PHN = s'.req.PHN ∧ s.req.SER = s'.req.SER
  | _ => True

/-- A request that consumes an identifier. -/
def requestConsumes : Request → Bool
  | .idnext | .aenc _ => true
  | _ => false

end Sys2Proof.Claims

open Sys2Proof Sys2Proof.Config Sys2Proof.Machine Sys2Proof.Claims

/-! ### Encoding and the step -/

/-- The codes of the table in 30_encoding.md section 1, read and written; a word wider than a 4-bit `OP` is none (the last
clause is the model's reading, log 8). -/
def Obligations.OperationCodesAsTabulated : Prop :=
  (∀ row ∈ [(0x1, Instr.sum8), (0x2, .xor8), (0x3, .idnext), (0x4, .aenc), (0x5, .adec), (0x6, .esc), (0x7, .unesc),
      (0x8, .benc), (0x9, .bdec), (0x0, .reserved0), (0xA, .reservedA), (0xB, .reservedB), (0xC, .reservedC),
      (0xD, .reservedD), (0xE, .reservedE), (0xF, .reservedF)],
    decodeTableWord 8 row.1 = some row.2 ∧ (encode row.2).toNat = row.1) ∧
  ∀ w, 16 ≤ w → decodeTableWord 8 w = none

/-- Decoding the code of any operation gives the operation, and every code is the code of what it decodes to
(30_encoding.md R62: decoding needs nothing but `OP`). -/
def Obligations.DecodingInvertsEncoding : Prop :=
  (∀ i, decodeOp (encode i) = i ∧ ∀ rest, decode (encodeBytes i ++ rest) = .ok (i, rest)) ∧
  ∀ op, encode (decodeOp op) = op

/-- A step is the operation that `OP` selects, executed in the state as it stands (30_encoding.md R60, 20_memory.md R58);
`withFetchWord` is the host's write of `OP`. -/
def Obligations.StepExecutesTheSelectedOperation : Prop :=
  (∀ (s : State) (i : Instr), s.req.OP = encode i → step s = exec i s) ∧
  (∀ (s : State) (w : Nat) (i : Instr), decodeTableWord 8 w = some i →
    step (s.withFetchWord 8 w) = exec i (s.writeOp (BitVec.ofNat 4 w)))

/-! ### Checksum engines -/

/-- 40_checksum.md R102: the byte sum modulo 256, as byte and as two uppercase hexadecimal characters; nothing else
is set, and no input fails. -/
def Obligations.Sum8AnswersTheByteSumModulo256 : Prop :=
  decodeTableWord 8 0x1 = some .sum8 ∧ ∀ s : State, ∃ c : Byte, IsByteSum c s.req.IN ∧
    exec .sum8 s = .next { s with resp := { Response.cleared with RB := c, CKC := c, OUT := hexPair c } }

/-- 40_checksum.md R103: the exclusive or of the bytes, as byte only; nothing else is set, and no input fails. -/
def Obligations.Xor8AnswersTheExclusiveOr : Prop :=
  decodeTableWord 8 0x2 = some .xor8 ∧ ∀ s : State, ∃ c : Byte, IsByteXor c s.req.IN ∧
    exec .xor8 s = .next { s with resp := { Response.cleared with RB := c, CKC := c } }

/-- 40_checksum.md R104 (the spec's own derivation): both checksums answer the same for
every permutation of the input, and differ whenever exactly one byte is replaced. -/
def Obligations.ChecksumsIgnoreOrderAndSeeOneByte : Prop :=
  ∀ (i : Instr) (s : State), i = .sum8 ∨ i = .xor8 →
    (∀ b t t', b.Perm s.req.IN → exec i s = .next t → exec i { s with req := { s.req with IN := b } } = .next t' →
      t'.resp = t.resp) ∧
    (∀ p q x y t t', s.req.IN = p ++ x :: q → x ≠ y → exec i s = .next t →
      exec i { s with req := { s.req with IN := p ++ y :: q } } = .next t' → t'.resp.RB ≠ t.resp.RB)

/-! ### Identifier sequencer -/

/-- 41_identifier.md R112: IDNEXT answers the identifier `ID` held and advances `ID` along the cycle. It never fails. -/
def Obligations.IdnextIssuesThenAdvances : Prop :=
  decodeTableWord 8 0x3 = some .idnext ∧ ∀ s : State, ∃ v : Byte, NextInCycle s.ID v ∧
    exec .idnext s = .next { s with ID := v, resp := { Response.cleared with RB := s.ID } }

/-- 41_identifier.md R116, 10_state.md R35: of all a host can do, reset sets `ID` to `0x41`, an IDNEXT always and an AENC
without a fatal result advance it, and nothing else changes it; so only reset and the wrap after `0x7A` bring it back to
`0x41`. -/
def Obligations.IdChangesByResetIdnextAndCompletedAencOnly : Prop :=
  ∀ (a : HostAction) (s t : State), a.apply s = some t →
    (a = .reset → t.ID = 0x41) ∧
    (a = .start → s.req.OP = 0x3 ∨ (s.req.OP = 0x4 ∧ t.resp.STATUS = 0) → t.ID ≠ s.ID ∧ NextInCycle s.ID t.ID) ∧
    (a ≠ .reset → ¬ (a = .start ∧ (s.req.OP = 0x3 ∨ (s.req.OP = 0x4 ∧ t.resp.STATUS = 0))) → t.ID = s.ID) ∧
    (IdInRange s → a ≠ .reset → t.ID = 0x41 → s.ID ≠ 0x41 → s.ID = 0x7A)

/-- 41_identifier.md R111, its second line (the spec's own decision D7): from a value outside `0x41 .. 0x7A`, which no run
reaches, an issued identifier is followed by `0x41`. -/
def Obligations.IdentifiersOutsideTheCycleReturnToA : Prop :=
  ∀ (s t : State) (i : Instr), s.ID.toNat < 0x41 ∨ 0x7A < s.ID.toNat → consumes i = true → exec i s = .next t →
    t.resp.STATUS = 0 → t.ID = 0x41

/-- The steps of IDNEXT, one after the other, run through the cycle of 58 identifiers (R114, derived by the spec): after
`n` of them `ID` stands `n` places further, and the last one issued is the one before. -/
def Obligations.RepeatedIdnextCyclesThroughFiftyEight : Prop :=
  ∀ (s : State) (n : Nat), IdInRange s → s.req.OP = 0x3 → ∃ t : State, Host.Core.run Sys2Proof.core (n + 1) s = .next t ∧
    t.ID.toNat = 0x41 + (s.ID.toNat - 0x41 + (n + 1)) % 58 ∧ t.resp.RB.toNat = 0x41 + (s.ID.toNat - 0x41 + n) % 58

/-- 20_memory.md R54: over any sequence of requests to one block, so over every merge of several producers' requests, the
identifiers issued by IDNEXT and AENC are consecutive elements of the cycle, with no repeat and no gap; whatever else
runs or fails between them, `ID` counts those and nothing else (the consequence is the spec's own derivation). -/
def Obligations.ScriptsIssueConsecutiveIdentifiers : Prop :=
  ∀ (qs : List Request) (s t : State) (rs : List Response), IdInRange s → runScript qs s = some (rs, t) →
    (∀ k v, (issuedIds qs rs)[k]? = some v → v.toNat = 0x41 + (s.ID.toNat - 0x41 + k) % 58) ∧
    t.ID.toNat = 0x41 + (s.ID.toNat - 0x41 + (issuedIds qs rs).length) % 58

/-! ### ASCII encoder -/

/-- 42_ascii_frame.md R121, R122: AENC builds the frame of the field table with the identifier `ID`, answers it with its
checksum and length number and advances `ID`; a frame longer than `MAXOUT` is `CapacityExceeded` and leaves `ID`. (R121's
corner case counts the 11-byte frame of no fields as 12 bytes: log 13.) -/
def Obligations.AencBuildsTheFrameAndAdvances : Prop :=
  decodeTableWord 8 0x4 = some .aenc ∧ ∀ s : State,
    (∃ frame ck, IsAsciiFrame s.ID s.req.FLD frame ck) ∧
    ∀ frame ck, IsAsciiFrame s.ID s.req.FLD frame ck →
      (frame.length ≤ s.caps.maxOut → ∃ (v : Byte) (total : Word), NextInCycle s.ID v ∧
        ((bodyOf s.req.FLD).length + 4 < 2 ^ 32 → total.toNat = (bodyOf s.req.FLD).length + 4) ∧
        exec .aenc s = .next { s with
          ID := v
          resp := { Response.cleared with OUT := frame, RB := s.ID, CKC := ck, TOTAL := total } }) ∧
      (s.caps.maxOut < frame.length → EndsFatally .aenc s 0x0B frame.length)

/-- The laws of R125 and R67 (derived by the spec): the answered frame opens with `$$` and the old `ID`, closes with `*`,
two uppercase hexadecimal characters and CRLF, and `TOTAL` counts the bytes after the header. -/
def Obligations.AencFrameHasItsShape : Prop :=
  ∀ s t : State, exec .aenc s = .next t → t.resp.STATUS = 0 → t.resp.OUT.length < 2 ^ 32 →
    ∃ len tail, IsDecimal len t.resp.TOTAL.toNat ∧ t.resp.OUT = [0x24, 0x24, s.ID] ++ len ++ tail ∧
      tail.length = t.resp.TOTAL.toNat ∧ 7 ≤ tail.length ∧ tail.head? = some 0x2C ∧
      ([0x2A] ++ hexPair t.resp.CKC ++ [0x0D, 0x0A]) <:+ tail ∧
      (s.req.FLD ≠ [] → tail.length = s.req.FLD.length + 6 + (s.req.FLD.map List.length).sum)

/-- 30_encoding.md R63: the frame of the standard profile, byte for byte in the exact wire form; `<id>` is one identifier
byte, `<len>` decimal digits, `<CC>` two uppercase hexadecimal digits. -/
def Obligations.StandardProfileFramesHaveTheWireForm : Prop :=
  ∀ (p : StandardProfile) (s : State), (aencStd p).wf s.caps = true → ∃ t, serve (aencStd p) s = some t ∧
    (t.resp.STATUS = 0 → ∃ (n : Nat) (len : Bytes) (c : Byte), IsDecimal len n ∧
      t.resp.OUT = wireForm s.ID len p (hexPair c))

/-! ### ASCII decoder -/

/-- R130, R134: every input can be read as parts and checksum text, and where the number of parts is accepted ADEC
answers all of them raw with the checksum text, leaves `ID` and the operands, and clears what it does not report. -/
def Obligations.AdecReportsThePartsRaw : Prop :=
  decodeTableWord 8 0x5 = some .adec ∧ ∀ s : State,
    (∃ parts ck, AdecReads s parts ck) ∧
    ∀ parts ck, AdecAccepts s parts ck → ∃ r : Response, exec .adec s = .next { s with resp := r } ∧
      r.STATUS = 0 ∧ r.INFO = 0 ∧ r.PART = parts ∧ r.CKTXT = ck.getD [] ∧
      r.RB = 0 ∧ r.CKR = 0 ∧ r.MSGID = 0 ∧ r.LENW = 0 ∧ r.SERIAL = 0 ∧ r.BFLAG = 0 ∧
      r.OUT = [] ∧ r.OUTHEX = [] ∧ r.BCD = [] ∧ r.PHONE = []

/-- R132, R143: fewer than 16 parts is `TooFewFields`, more than `MAXPART` is `CapacityExceeded`, each with the number of
parts. -/
def Obligations.AdecRefusesTooFewOrTooManyParts : Prop :=
  ∀ (s : State) parts ck, AdecReads s parts ck →
    (parts.length < 16 → EndsFatally .adec s 0x01 parts.length) ∧
    (16 ≤ parts.length → s.caps.maxPart < parts.length → EndsFatally .adec s 0x0B parts.length)

/-- R131, R133: without a `*` the checksum is not found and not judged; with one, `CKC` is the sum through that `*`, and
the verdict is the byte-for-byte comparison of the received text with its two uppercase digits. -/
def Obligations.AdecJudgesTheChecksum : Prop :=
  ∀ (s : State) parts ck, AdecAccepts s parts ck → ∃ r : Response, exec .adec s = .next { s with resp := r } ∧
    (ck = none → r.FLAGS.getLsbD 0 = false ∧ r.FLAGS.getLsbD 1 = false ∧ r.FLAGS.getLsbD 2 = false ∧
      r.CKC = 0 ∧ r.CKTXT = []) ∧
    ∀ t, ck = some t → IsByteSum r.CKC (List.intercalate [0x2C] parts ++ [0x2A]) ∧ r.CKTXT = t ∧
      r.FLAGS.getLsbD 0 = true ∧ r.FLAGS.getLsbD 1 = decide (t = hexPair r.CKC) ∧
      r.FLAGS.getLsbD 2 = decide (t ≠ hexPair r.CKC)

/-- R135, R136: the cell group (part 16, 4 sub-parts) and the analog group (part 18, 5 sub-parts) are each populated all
or nothing, independently, and sub-parts beyond the expected ones are ignored. -/
def Obligations.AdecGroupsAreAllOrNothing : Prop :=
  ∀ (s : State) parts ck, AdecAccepts s parts ck → ∃ r : Response, exec .adec s = .next { s with resp := r } ∧
    (parts.length ≤ 16 → r.CELL = [] ∧ r.FLAGS.getLsbD 4 = false) ∧
    (∀ p subs, parts[16]? = some p → SubParts p subs →
      (subs.length < 4 → r.CELL = [] ∧ r.FLAGS.getLsbD 4 = false) ∧
      (4 ≤ subs.length → r.CELL = subs.take 4 ∧ r.FLAGS.getLsbD 4 = true)) ∧
    (parts.length ≤ 18 → r.AD = [] ∧ r.FLAGS.getLsbD 5 = false) ∧
    (∀ p subs, parts[18]? = some p → SubParts p subs →
      (subs.length < 5 → r.AD = [] ∧ r.FLAGS.getLsbD 5 = false) ∧
      (5 ≤ subs.length → r.AD = subs.take 5 ∧ r.FLAGS.getLsbD 5 = true))

/-- R137, R138 (the range test is the spec's decision D19, the calendar general knowledge: log 11): part 6 is read as six
two-digit numbers when it is twelve digits in range; otherwise `TS_BAD` is set and the numbers are 0. The raw part
stays. -/
def Obligations.AdecParsesTheTimestamp : Prop :=
  ∀ (s : State) parts ck ts, AdecAccepts s parts ck → parts[6]? = some ts →
    ∃ r : Response, exec .adec s = .next { s with resp := r } ∧ r.PART[6]? = some ts ∧
    (∀ ds, GoodTimestamp ts ds → r.FLAGS.getLsbD 3 = false ∧ r.YY.toNat = pair ds 0 ∧ r.MO.toNat = pair ds 1 ∧
      r.DD.toNat = pair ds 2 ∧ r.HH.toNat = pair ds 3 ∧ r.MI.toNat = pair ds 4 ∧ r.SS.toNat = pair ds 5) ∧
    ((¬ ∃ ds, GoodTimestamp ts ds) → r.FLAGS.getLsbD 3 = true ∧ r.YY = 0 ∧ r.MO = 0 ∧ r.DD = 0 ∧ r.HH = 0 ∧
      r.MI = 0 ∧ r.SS = 0)

/-- R139 (the spec's decision D16): a header of its form gives its identifier byte and its number when that is below
`2^32`; any other header is reported by `HDR_OK = 0` and is no error. -/
def Obligations.AdecReportsTheHeader : Prop :=
  ∀ (s : State) parts ck h, AdecAccepts s parts ck → parts[0]? = some h →
    ∃ r : Response, exec .adec s = .next { s with resp := r } ∧ r.PART[0]? = some h ∧
    (∀ id ds, GoodHeader h id ds → r.FLAGS.getLsbD 8 = true ∧ r.HDRID = id ∧
      (ds.foldl (fun v d => 10 * v + d) 0 < 2 ^ 32 → r.TOTAL.toNat = ds.foldl (fun v d => 10 * v + d) 0) ∧
      (2 ^ 32 ≤ ds.foldl (fun v d => 10 * v + d) 0 → r.TOTAL = 0)) ∧
    ((¬ ∃ id ds, GoodHeader h id ds) → r.FLAGS.getLsbD 8 = false ∧ r.HDRID = 0 ∧ r.TOTAL = 0)

/-- 10_state.md R32, 42_ascii_frame.md R134: after a non-fatal ADEC each of the 20 named parts is the part of its index in
`PART`, and `TRAIL` is the rest from index 20 on; the first 16 exist, and each of the other four is absent exactly when
`NP` does not exceed its index. -/
def Obligations.AdecNamesTheParts : Prop :=
  ∀ s t : State, exec .adec s = .next t → t.resp.STATUS = 0 →
    t.resp.field .HDR = t.resp.PART[0]? ∧ t.resp.field .IMEI = t.resp.PART[1]? ∧
    t.resp.field .CMD = t.resp.PART[2]? ∧ t.resp.field .EVENT = t.resp.PART[3]? ∧
    t.resp.field .LAT = t.resp.PART[4]? ∧ t.resp.field .LON = t.resp.PART[5]? ∧
    t.resp.field .TS = t.resp.PART[6]? ∧ t.resp.field .STAT = t.resp.PART[7]? ∧
    t.resp.field .SATS = t.resp.PART[8]? ∧ t.resp.field .GSM = t.resp.PART[9]? ∧
    t.resp.field .SPEED = t.resp.PART[10]? ∧ t.resp.field .DIR = t.resp.PART[11]? ∧
    t.resp.field .HDOP = t.resp.PART[12]? ∧ t.resp.field .ALT = t.resp.PART[13]? ∧
    t.resp.field .MILEAGE = t.resp.PART[14]? ∧ t.resp.field .RUNTIME = t.resp.PART[15]? ∧
    t.resp.field .CELLRAW = t.resp.PART[16]? ∧ t.resp.field .PORT = t.resp.PART[17]? ∧
    t.resp.field .ADRAW = t.resp.PART[18]? ∧ t.resp.field .EVINFO = t.resp.PART[19]? ∧
    t.resp.TRAIL = t.resp.PART.drop 20 ∧ 16 ≤ t.resp.PART.length ∧
    (∀ p ∈ [PartName.HDR, .IMEI, .CMD, .EVENT, .LAT, .LON, .TS, .STAT, .SATS, .GSM, .SPEED, .DIR, .HDOP, .ALT, .MILEAGE,
      .RUNTIME], t.resp.field p ≠ none) ∧
    (t.resp.field .CELLRAW = none ↔ t.resp.PART.length ≤ 16) ∧ (t.resp.field .PORT = none ↔ t.resp.PART.length ≤ 17) ∧
    (t.resp.field .ADRAW = none ↔ t.resp.PART.length ≤ 18) ∧ (t.resp.field .EVINFO = none ↔ t.resp.PART.length ≤ 19)

/-- 42_ascii_frame.md R131, R141 (the law is derived by the spec): ADEC answers the same for a frame with and without its
final CRLF. -/
def Obligations.AdecIgnoresOneFinalCrlf : Prop :=
  ∀ (s t u : State) (b : Bytes), s.req.IN = b ++ [0x0D, 0x0A] → ¬ [0x0D, 0x0A] <:+ b → exec .adec s = .next t →
    exec .adec { s with req := { s.req with IN := b } } = .next u → u.resp = t.resp

/-- R141 (derived by the spec): ADEC of the frame AENC built from a valid field set of at least 15 fields gives the
fields back between the header and one empty part, with a valid checksum and the identifier, length number and checksum
of the encoder. -/
def Obligations.AsciiFramesDecodeToTheirFields : Prop :=
  ∀ s t : State, IdInRange s → 15 ≤ s.req.FLD.length → s.req.FLD.length + 2 ≤ s.caps.maxPart →
    (∀ f ∈ s.req.FLD, 0x2C ∉ f ∧ 0x2A ∉ f ∧ 0x0D ∉ f ∧ 0x0A ∉ f) →
    exec .aenc s = .next t → t.resp.STATUS = 0 → t.resp.OUT.length < 2 ^ 32 →
    ∃ (u : State) (hdr : Bytes), exec .adec (feedBack t) = .next u ∧ u.resp.STATUS = 0 ∧
      u.resp.PART = [hdr] ++ s.req.FLD ++ [[]] ∧ u.resp.HDRID = t.resp.RB ∧ u.resp.TOTAL = t.resp.TOTAL ∧
      u.resp.CKC = t.resp.CKC ∧ u.resp.CKTXT = hexPair t.resp.CKC ∧ u.ID = t.ID ∧
      u.resp.FLAGS.getLsbD 0 = true ∧ u.resp.FLAGS.getLsbD 1 = true ∧ u.resp.FLAGS.getLsbD 2 = false ∧
      u.resp.FLAGS.getLsbD 8 = true

/-- R141, 30_encoding.md R66 (derived by the spec): ADEC of a standard profile's frame gives every value back under its
name, both groups whole and a valid checksum, when no value holds a structural byte. -/
def Obligations.StandardProfileFramesDecodeToTheProfile : Prop :=
  ∀ (p : StandardProfile) (s t : State), IdInRange s → 21 ≤ s.caps.maxPart →
    (∀ v ∈ p.values, ∀ b ∈ v, b ≠ 0x2C ∧ b ≠ 0x2A ∧ b ≠ 0x0D ∧ b ≠ 0x0A ∧ b ≠ 0x7C) →
    serve (aencStd p) s = some t → t.resp.STATUS = 0 →
    ∃ u, exec .adec (feedBack t) = .next u ∧ u.resp.STATUS = 0 ∧ u.resp.PART.length = 21 ∧
      u.resp.FLAGS.getLsbD 1 = true ∧ u.resp.FLAGS.getLsbD 4 = true ∧ u.resp.FLAGS.getLsbD 5 = true ∧
      u.resp.HDRID = s.ID ∧ u.resp.CELL = [p.mcc, p.mnc, p.lac, p.cellId] ∧
      u.resp.AD = [p.ad1, p.ad2, p.ad3, p.battery, p.ad5] ∧
      u.resp.field .IMEI = some p.imei ∧ u.resp.field .CMD = some p.cmd ∧ u.resp.field .EVENT = some p.event ∧
      u.resp.field .LAT = some p.lat ∧ u.resp.field .LON = some p.lon ∧ u.resp.field .TS = some p.ts ∧
      u.resp.field .STAT = some p.status ∧ u.resp.field .SATS = some p.sats ∧ u.resp.field .GSM = some p.gsm ∧
      u.resp.field .SPEED = some p.speed ∧ u.resp.field .DIR = some p.dir ∧ u.resp.field .HDOP = some p.hdop ∧
      u.resp.field .ALT = some p.alt ∧ u.resp.field .MILEAGE = some p.mileage ∧
      u.resp.field .RUNTIME = some p.runtime ∧ u.resp.field .PORT = some p.port ∧
      u.resp.field .EVINFO = some p.evinfo ∧ u.resp.TRAIL = [[]]

/-- R141 (derived by the spec): the frame of a valid field set of at most 13 fields has too few parts; with 14 fields it
passes, with an empty `RUNTIME`. -/
def Obligations.ShortAsciiFramesAreTooFew : Prop :=
  ∀ s t : State, IdInRange s → (∀ f ∈ s.req.FLD, 0x2C ∉ f ∧ 0x2A ∉ f ∧ 0x0D ∉ f ∧ 0x0A ∉ f) → 16 ≤ s.caps.maxPart →
    exec .aenc s = .next t → t.resp.STATUS = 0 →
    (s.req.FLD.length ≤ 13 → EndsFatally .adec (feedBack t) 0x01 (max s.req.FLD.length 1 + 2)) ∧
    (s.req.FLD.length = 14 → ∃ u, exec .adec (feedBack t) = .next u ∧ u.resp.STATUS = 0 ∧
      u.resp.field .RUNTIME = some [] ∧ u.resp.field .CELLRAW = none)

/-- R141 and 40_checksum.md R104 (derived by the spec): a frame whose checksum is valid, with exactly one byte before its
last `*` replaced by another, is reported as a mismatch wherever it still decodes; where neither byte is a comma it does
decode, and all parts are as before but the one whose index is the number of commas before that byte. -/
def Obligations.AdecDetectsOneCorruptedByte : Prop :=
  ∀ (s t u : State) (p q ck : Bytes) (x y : Byte), s.req.IN = p ++ x :: q ++ 0x2A :: ck ++ [0x0D, 0x0A] → 0x2A ∉ ck →
    x ≠ y → exec .adec s = .next t → t.resp.FLAGS.getLsbD 1 = true →
    exec .adec { s with req := { s.req with IN := p ++ y :: q ++ 0x2A :: ck ++ [0x0D, 0x0A] } } = .next u →
    (u.resp.STATUS = 0 → u.resp.FLAGS.getLsbD 0 = true ∧ u.resp.FLAGS.getLsbD 1 = false ∧
      u.resp.FLAGS.getLsbD 2 = true ∧ u.resp.CKTXT = ck) ∧
    (x ≠ 0x2C → y ≠ 0x2C → u.resp.STATUS = 0 ∧ u.resp.PART.length = t.resp.PART.length ∧
      ∀ j : Nat, j ≠ p.count 0x2C → u.resp.PART[j]? = t.resp.PART[j]?)

/-! ### Escape engine -/

/-- 43_escape.md R150: wherever the result fits `OUT`, ESC answers its input escaped byte by byte, and nothing else. -/
def Obligations.EscAnswersTheEscapedInput : Prop :=
  decodeTableWord 8 0x6 = some .esc ∧ ∀ s : State, (escaped s.req.IN).length ≤ s.caps.maxOut →
    exec .esc s = .next { s with resp := { Response.cleared with OUT := escaped s.req.IN } }

/-- R152, R153: every input either is a sequence of plain bytes and escape pairs, and UNESC answers what it stands for, or
the scan stops at the first `0x7D` that starts no pair, and UNESC ends with `UnescapedControlByte` at its offset. -/
def Obligations.UnescAnswersOrPointsAtTheBadByte : Prop :=
  decodeTableWord 8 0x7 = some .unesc ∧ ∀ s : State,
    ((∃ o, Unescapes s.req.IN o) ∨ ∃ i, StopsAt s.req.IN i) ∧
    (∀ o, Unescapes s.req.IN o → o.length ≤ s.caps.maxOut →
      exec .unesc s = .next { s with resp := { Response.cleared with OUT := o } }) ∧
    (∀ i, StopsAt s.req.IN i → EndsFatally .unesc s 0x06 i)

/-- R154 (derived by the spec): the output of ESC holds no `0x7E`, every `0x7D` in it is followed by `0x01` or `0x02`, and
its length is that of the input and one more for each escaped byte. -/
def Obligations.EscOutputIsFreeOfFlagBytes : Prop :=
  ∀ s t : State, exec .esc s = .next t → t.resp.STATUS = 0 →
    0x7E ∉ t.resp.OUT ∧
    (∀ p q, t.resp.OUT = p ++ 0x7D :: q → q.head? = some 0x01 ∨ q.head? = some 0x02) ∧
    t.resp.OUT.length = s.req.IN.length + s.req.IN.count 0x7E + s.req.IN.count 0x7D

/-- R154 (derived by the spec), the source's `unescape(escape(bytes)) == bytes`: ESC, then UNESC of its output, gives the
input back; and UNESC, then ESC of its output, gives an input back that UNESC accepts and that holds no `0x7E`. -/
def Obligations.EscapeAndUnescapeRoundTrip : Prop :=
  (∀ s t : State, exec .esc s = .next t → t.resp.STATUS = 0 → s.req.IN.length ≤ s.caps.maxOut →
    exec .unesc (feedBack t) = .next { feedBack t with resp := { Response.cleared with OUT := s.req.IN } }) ∧
  (∀ s t : State, exec .unesc s = .next t → t.resp.STATUS = 0 → 0x7E ∉ s.req.IN → s.req.IN.length ≤ s.caps.maxOut →
    exec .esc (feedBack t) = .next { feedBack t with resp := { Response.cleared with OUT := s.req.IN } })

/-! ### BSJ encoder -/

/-- 44_bsj_frame.md R161, R165 (the nibble order is general knowledge, log 11; the hexadecimal form the spec's decision
D26): BENC answers the flagged, escaped frame of its command, phone and serial in both forms with its header fields; a
frame longer than `MAXOUT` is `CapacityExceeded`. -/
def Obligations.BencBuildsTheFlaggedFrame : Prop :=
  decodeTableWord 8 0x8 = some .benc ∧ ∀ (s : State) (phone : List Nat) (serial : Nat) (ck : Byte),
    BencAccepts s phone serial → IsByteXor ck (bsjUnescaped s.req.IN phone serial) →
    ((bsjWire s.req.IN phone serial ck).length ≤ s.caps.maxOut →
      exec .benc s = .next { s with resp := { Response.cleared with
        OUT := bsjWire s.req.IN phone serial ck
        OUTHEX := (bsjWire s.req.IN phone serial ck).flatMap hexPair
        CKC := ck
        MSGID := 0x8300
        LENW := BitVec.ofNat 16 (s.req.IN.length + 1)
        SERIAL := BitVec.ofNat 16 serial
        BCD := bcdOf (padded phone)
        PHONE := (padded phone).map ascii } }) ∧
    (s.caps.maxOut < (bsjWire s.req.IN phone serial ck).length →
      EndsFatally .benc s 0x0B (bsjWire s.req.IN phone serial ck).length)

/-- R162, R166: a phone with a non-digit among its first 12 bytes, or with more than 12 bytes, is `InvalidPhoneNumber` with
the offset of that byte, or 12, whatever the serial and the command are. Where the first non-digit stands at offset 12 or
later the two clauses of R162 differ: that `INFO` is 12 there too is the model's choice (log 6, DEDUCED, unsafe). -/
def Obligations.BencRefusesABadPhoneFirst : Prop :=
  ∀ (s : State) (d : List Nat) (q : Bytes), (∀ x ∈ d, x < 10) →
    (∀ b, s.req.PHN = d.map ascii ++ b :: q → d.length < 12 → b.toNat < 0x30 ∨ 0x39 < b.toNat →
      EndsFatally .benc s 0x04 d.length) ∧
    (s.req.PHN = d.map ascii ++ q → d.length = 12 → q ≠ [] → EndsFatally .benc s 0x04 12)

/-- R163, R166: with a good phone, a serial outside `[0, 65535]` is `InvalidSerial` with the raw operand. -/
def Obligations.BencRefusesABadSerial : Prop :=
  ∀ (s : State) (phone : List Nat), PhoneDigits s.req.PHN phone → s.req.SER.toInt < 0 ∨ 65535 < s.req.SER.toInt →
    exec .benc s = .next { s with resp := { Response.cleared with STATUS := 0x05, INFO := s.req.SER } }

/-- R164, R166: with a good phone and serial, a body longer than 65535 bytes is `BodyTooLong` with its length. -/
def Obligations.BencRefusesALongBody : Prop :=
  ∀ (s : State) (phone : List Nat) (serial : Nat), PhoneDigits s.req.PHN phone → SerialIs s serial →
    65535 < s.req.IN.length + 1 → EndsFatally .benc s 0x0A (s.req.IN.length + 1)

/-- R167 (derived by the spec): the answered frame opens and closes with `0x7E` and holds no other; what stands between
unescapes to a string of `14 + len(cmd)` bytes that starts `83 00` and whose exclusive or is 0. -/
def Obligations.BencFrameHasItsShape : Prop :=
  ∀ s t : State, exec .benc s = .next t → t.resp.STATUS = 0 →
    ∃ inner u, t.resp.OUT = [0x7E] ++ inner ++ [0x7E] ∧ 0x7E ∉ inner ∧ Unescapes inner u ∧
      u.length = 14 + s.req.IN.length ∧ [0x83, 0x00] <+: u ∧ IsByteXor 0 u ∧
      inner.length = u.length + u.count 0x7E + u.count 0x7D ∧ t.resp.OUTHEX.length = 2 * t.resp.OUT.length

/-! ### BSJ decoder -/

/-- R170, R173, R174: between two flag bytes, without another inside, at least 14 unescaped bytes: every field is
reported by position whatever its value, the payload cut by position, and the conditions as flags; a checksum mismatch is
no fatal result. That the left digit of a pair in `PHONE` is the one in bits 7:4 is the spec's general knowledge
(20_memory.md R45, D22; log 11, PRESUMED), no rule of the source. -/
def Obligations.BdecReportsTheFieldsByPosition : Prop :=
  decodeTableWord 8 0x9 = some .bdec ∧ ∀ (s : State) (inner : Bytes) (x : Layout),
    Framed s.req.IN inner → Unescapes inner x.bytes → x.bcd.length = 6 → x.payload.length ≤ s.caps.maxOut →
    ∃ c : Byte, IsByteXor c x.covered ∧
      exec .bdec s = .next { s with resp := { Response.cleared with
        FLAGS := BitVec.ofNat 16 (1 + (if x.ck = c then 2 else 4) +
          (if x.l1.toNat * 256 + x.l0.toNat = x.payload.length + 1 then 64 else 0) +
          (if decimalNibbles x.bcd then 128 else 0))
        MSGID := x.m1 ++ x.m0
        LENW := x.l1 ++ x.l0
        SERIAL := x.s1 ++ x.s0
        BCD := x.bcd
        BFLAG := x.bflag
        OUT := x.payload
        PHONE := if decimalNibbles x.bcd then x.bcd.flatMap (fun b => [ascii (b.toNat / 16), ascii (b.toNat % 16)]) else []
        CKR := x.ck
        CKC := c } }

/-- R171 (the spec's decisions D27, D28): an input without two flag bytes at its ends is `MissingFlag` with its length;
with a flag byte between them, `InteriorFlag` at the first one. -/
def Obligations.BdecRefusesMissingOrInteriorFlags : Prop :=
  ∀ s : State,
    (s.req.IN.length < 2 ∨ s.req.IN.head? ≠ some 0x7E ∨ s.req.IN.getLast? ≠ some 0x7E →
      EndsFatally .bdec s 0x07 s.req.IN.length) ∧
    (∀ a b, s.req.IN = [0x7E] ++ a ++ [0x7E] ++ b ++ [0x7E] → 0x7E ∉ a → EndsFatally .bdec s 0x08 (a.length + 1))

/-- R170, R172 (D29, D39): after the flags, a bad escape pair is `UnescapedControlByte` at its offset in `IN`; fewer than
14 unescaped bytes is `Truncated` with their number. -/
def Obligations.BdecRefusesBadEscapesAndTruncation : Prop :=
  ∀ (s : State) (inner : Bytes), Framed s.req.IN inner →
    ((∃ u, Unescapes inner u) ∨ ∃ i, StopsAt inner i) ∧
    (∀ i, StopsAt inner i → EndsFatally .bdec s 0x06 (i + 1)) ∧
    (∀ u, Unescapes inner u → u.length < 14 → EndsFatally .bdec s 0x09 u.length)

/-- 43_escape.md R151, R153, 60_exceptions.md R207 (the spec's decision D4; the place of the check in UNESC and BDEC is log
7): ESC, UNESC and BDEC end with `CapacityExceeded` when their result does not fit `OUT`; ESC can only where
`MAXOUT < 2*MAXIN`, UNESC and BDEC only where `MAXOUT < MAXIN`. -/
def Obligations.ResultsThatDoNotFitAreCapacityExceeded : Prop :=
  (∀ s : State, s.caps.maxOut < (escaped s.req.IN).length →
    EndsFatally .esc s 0x0B (escaped s.req.IN).length ∧
      (s.req.IN.length ≤ s.caps.maxIn → s.caps.maxOut < 2 * s.caps.maxIn)) ∧
  (∀ (s : State) (o : Bytes), Unescapes s.req.IN o → s.caps.maxOut < o.length →
    EndsFatally .unesc s 0x0B o.length ∧ (s.req.IN.length ≤ s.caps.maxIn → s.caps.maxOut < s.caps.maxIn)) ∧
  ∀ (s : State) (inner u : Bytes), Framed s.req.IN inner → Unescapes inner u → 14 ≤ u.length →
    s.caps.maxOut < u.length - 14 →
    EndsFatally .bdec s 0x0B (u.length - 14) ∧ (s.req.IN.length ≤ s.caps.maxIn → s.caps.maxOut < s.caps.maxIn)

/-- R175 (derived by the spec): BDEC of the frame BENC built gives the command, phone and serial back, with
`FLAGS = 0x00C3`. -/
def Obligations.BsjFramesDecodeToTheirOperands : Prop :=
  ∀ (s t : State) (phone : List Nat) (serial : Nat), BencAccepts s phone serial → exec .benc s = .next t →
    t.resp.STATUS = 0 →
    exec .bdec (feedBack t) = .next { feedBack t with resp := { Response.cleared with
      FLAGS := 0x00C3
      MSGID := 0x8300
      LENW := BitVec.ofNat 16 (s.req.IN.length + 1)
      SERIAL := BitVec.ofNat 16 serial
      BCD := t.resp.BCD
      BFLAG := 0x00
      OUT := s.req.IN
      PHONE := (padded phone).map ascii
      CKR := t.resp.CKC
      CKC := t.resp.CKC } }

/-- R175, its last sentence (derived by the spec): in a frame whose checksum is valid, one byte of the unescaped string
changed before escaping gives `CK_MISMATCH`. -/
def Obligations.BdecDetectsOneCorruptedByte : Prop :=
  ∀ (s t : State) (p q : Bytes) (x y : Byte), s.req.IN = [0x7E] ++ escaped (p ++ x :: q) ++ [0x7E] → x ≠ y →
    exec .bdec s = .next t → t.resp.STATUS = 0 → t.resp.FLAGS.getLsbD 1 = true →
    ∃ u, exec .bdec { s with req := { s.req with IN := [0x7E] ++ escaped (p ++ y :: q) ++ [0x7E] } } = .next u ∧
      u.resp.STATUS = 0 ∧ u.resp.FLAGS.getLsbD 0 = true ∧ u.resp.FLAGS.getLsbD 1 = false ∧ u.resp.FLAGS.getLsbD 2 = true

/-! ### Reserved codes -/

/-- 30_encoding.md R61 (the spec's decision D35): a reserved code ends with `IllegalOp`, `STATUS = 0x0F`, `INFO = OP`,
changes no state and clears all results. -/
def Obligations.ReservedCodesEndWithIllegalOp : Prop :=
  (∀ s : State, s.req.OP.toNat = 0 ∨ 0xA ≤ s.req.OP.toNat →
    step s = .next { s with resp := { Response.cleared with STATUS := 0x0F, INFO := s.req.OP.setWidth 32 } }) ∧
  ∀ i ∈ [Instr.reserved0, .reservedA, .reservedB, .reservedC, .reservedD, .reservedE, .reservedF], ∀ s : State,
    exec i s = .next { s with resp := { Response.cleared with STATUS := 0x0F, INFO := (encode i).setWidth 32 } }

/-! ### The whole machine -/

/-- 60_exceptions.md R211, 41_identifier.md R116, 10_state.md R25: every operation ends in its response from every state;
it changes nothing but the response and `ID`, and `ID` only when it is IDNEXT or an AENC that answers OK, which then
reports the identifier it consumed. -/
def Obligations.EveryOperationEndsAndTouchesOnlyItsOwn : Prop :=
  ∀ (i : Instr) (s : State), ∃ (v : Byte) (r : Response), exec i s = .next { s with ID := v, resp := r } ∧
    (v = s.ID ∨ consumes i = true) ∧
    (consumes i = true → (r.STATUS = 0 → r.RB = s.ID ∧ NextInCycle s.ID v) ∧ (r.STATUS ≠ 0 → v = s.ID))

/-- 70_reset_and_hazards.md R245: an operation overwrites the whole last response; nothing of it survives into the next
state. -/
def Obligations.NoResultSurvivesTheNextOperation : Prop :=
  ∀ (i : Instr) (s : State) (old : Response), exec i { s with resp := old } = exec i s

/-- 10_state.md R24: the response of an operation is a function of its operands (and of the block's capacities, which are
parameters, R23); IDNEXT and AENC depend on nothing but their operands and `ID`. The operands are those each operation's
rule names. -/
def Obligations.ResponsesDependOnlyOnNamedOperands : Prop :=
  ∀ (i : Instr) (s s' t t' : State), agreeOnOperands i s s' → exec i s = .next t → exec i s' = .next t' →
    t.resp = t'.resp ∧ (consumes i = true → t.ID = t'.ID)

/-- 20_memory.md R51: every operation but IDNEXT and AENC is idempotent: repeated with the same operands it leaves the
same state. -/
def Obligations.OperationsOtherThanIssuingAreIdempotent : Prop :=
  ∀ (i : Instr) (s t : State), consumes i = false → exec i s = .next t → exec i t = .next t

/-- 10_state.md R39 (derived by the spec): a request's response is a function of the request and `ID` (and the
capacities); two blocks that agree on these answer alike whatever ran before, and requests that consume no identifier do
not depend on `ID`. -/
def Obligations.ResponsesAreAFunctionOfRequestAndId : Prop :=
  ∀ (q : Request) (s s' t : State), s.caps = s'.caps → (requestConsumes q = true → s.ID = s'.ID) →
    serve q s = some t → ∃ t', serve q s' = some t' ∧ t'.resp = t.resp ∧
      (requestConsumes q = true → t'.ID = t.ID) ∧ (requestConsumes q = false → t'.ID = s'.ID)

/-- 60_exceptions.md R201, R203 (the second derived by the spec): the fatal codes and the flags each operation can end
with; a fatal result clears everything but `STATUS` and `INFO` (R204), and the OK record has `INFO = 0` (R28). -/
def Obligations.ResultCodesAndFlagsByOperation : Prop :=
  ∀ (i : Instr) (s t : State), exec i s = .next t →
    (t.resp.STATUS = 0 ∨ t.resp.STATUS ∈ fatalCodes i) ∧ t.resp.FLAGS &&& ~~~ flagMask i = 0 ∧
    (t.resp.STATUS = 0 → t.resp.INFO = 0) ∧
    (t.resp.STATUS ≠ 0 → t.resp = { Response.cleared with STATUS := t.resp.STATUS, INFO := t.resp.INFO })

/-- 10_state.md R27 (the table's last line derived by the spec): after a non-fatal ADEC or BDEC exactly one of "not
found", "valid" and "mismatch" holds, and BDEC always finds a checksum. -/
def Obligations.ChecksumVerdictHasThreeStates : Prop :=
  ∀ (i : Instr) (s t : State), exec i s = .next t →
    t.resp.FLAGS.getLsbD 2 = (t.resp.FLAGS.getLsbD 0 && !t.resp.FLAGS.getLsbD 1) ∧
    (t.resp.FLAGS.getLsbD 1 = true → t.resp.FLAGS.getLsbD 0 = true) ∧
    (i = .bdec → t.resp.STATUS = 0 → t.resp.FLAGS.getLsbD 0 = true)

/-- 10_state.md R29: a scalar result register is 0 after every operation that the table does not name as its writer. -/
def Obligations.ScalarResultsAreZeroUnlessWritten : Prop :=
  ∀ (i : Instr) (s t : State), exec i s = .next t →
    (i ∉ [Instr.sum8, .xor8, .idnext, .aenc] → t.resp.RB = 0) ∧
    (i ∉ [Instr.sum8, .xor8, .aenc, .adec, .benc, .bdec] → t.resp.CKC = 0) ∧
    (i ≠ .bdec → t.resp.CKR = 0 ∧ t.resp.BFLAG = 0) ∧
    (i ∉ [Instr.aenc, .adec] → t.resp.TOTAL = 0) ∧
    (i ≠ .adec → t.resp.HDRID = 0 ∧ t.resp.PART = [] ∧ t.resp.YY = 0 ∧ t.resp.MO = 0 ∧ t.resp.DD = 0 ∧
      t.resp.HH = 0 ∧ t.resp.MI = 0 ∧ t.resp.SS = 0) ∧
    (i ∉ [Instr.benc, .bdec] → t.resp.MSGID = 0 ∧ t.resp.LENW = 0 ∧ t.resp.SERIAL = 0)

/-- 10_state.md R25, R30, R33: byte by byte, an operation leaves every operand buffer and table as it was, and empties
every result buffer and table it does not fill. -/
def Obligations.BuffersChangeOnlyWhereAnOperationFillsThem : Prop :=
  ∀ (i : Instr) (s t : State) (sp : Space) (off : Nat), exec i s = .next t →
    (operandSpace sp = true → t.readByte sp off = s.readByte sp off) ∧
    (operandSpace sp = false → fills i sp = false → t.readByte sp off = none)

/-! ### Invariants -/

/-- 10_state.md R20, R25 to R31, R34: what reset leaves, register by register and buffer by buffer: `ID = 0x41`, every other
register 0, every buffer and table empty; the first identifier issued is `0x41`. The capacities, the model's own field, stay
(log 3). -/
def Obligations.ResetLeavesEverythingEmptyAndIdA : Prop :=
  ∀ s u : State, u = s.afterReset →
    u.caps = s.caps ∧ u.ID = 0x41 ∧
    u.req.OP = 0x0 ∧ u.req.SER = 0 ∧ u.req.IN = [] ∧ u.req.PHN = [] ∧ u.req.FLD = [] ∧
    u.resp.STATUS = 0x00 ∧ u.resp.FLAGS = 0x0000 ∧ u.resp.INFO = 0 ∧
    u.resp.RB = 0 ∧ u.resp.CKC = 0 ∧ u.resp.CKR = 0 ∧ u.resp.TOTAL = 0 ∧ u.resp.HDRID = 0 ∧
    u.resp.YY = 0 ∧ u.resp.MO = 0 ∧ u.resp.DD = 0 ∧ u.resp.HH = 0 ∧ u.resp.MI = 0 ∧ u.resp.SS = 0 ∧
    u.resp.MSGID = 0 ∧ u.resp.LENW = 0 ∧ u.resp.SERIAL = 0 ∧ u.resp.BFLAG = 0 ∧
    u.resp.OUT = [] ∧ u.resp.OUTHEX = [] ∧ u.resp.CKTXT = [] ∧ u.resp.BCD = [] ∧ u.resp.PHONE = [] ∧
    u.resp.PART = [] ∧ u.resp.CELL = [] ∧ u.resp.AD = [] ∧
    u.INLEN = 0 ∧ u.PHNLEN = 0 ∧ u.NF = 0 ∧ u.OUTLEN = 0 ∧ u.HEXLEN = 0 ∧ u.CKTLEN = 0 ∧ u.NP = 0 ∧
    (∀ i, u.FLEN i = 0 ∧ u.PLEN i = 0 ∧ u.CLEN i = 0 ∧ u.ALEN i = 0) ∧
    (∀ (sp : Space) (off : Nat), u.readByte sp off = none) ∧
    ∃ t, exec .idnext u = .next t ∧ t.resp.RB = 0x41

/-- 10_state.md R21: every step keeps `0x41 <= ID <= 0x7A`. -/
def Obligations.StepKeepsIdInRange : Prop :=
  ∀ s t : State, IdInRange s → step s = .next t → IdInRange t

/-- 10_state.md R30, R31: every step keeps every buffer and table within its capacity. -/
def Obligations.StepKeepsMemoryForm : Prop :=
  ∀ s t : State, Memory.wf s → step s = .next t → Memory.wf t

/-- The invariant holds at reset, with the model's capacities (log 3) and with any legal ones. -/
def Obligations.ResetMeetsTheInvariant : Prop :=
  Inv State.reset ∧ ∀ c : Caps, c.ok → Inv { State.reset with caps := c }

/-- R21, R30, R31, R26 to R29: in every state a host can bring about, by any writes it can make, any operations and any
resets in any order, the identifier is in range, memory has its form and the response has its form. -/
def Obligations.ReachableStatesMeetTheInvariant : Prop :=
  ∀ s : State, Reachable s → Inv s

/-- 10_state.md R20, R25, R35, 41_identifier.md R116: no host write changes `ID`, the response or the capacities; only
reset and starting an operation do. -/
def Obligations.HostWritesReachOnlyOperands : Prop :=
  ∀ (a : HostAction) (s t : State), a ≠ .reset → a ≠ .start → a.apply s = some t →
    t.ID = s.ID ∧ t.resp = s.resp ∧ t.caps = s.caps ∧ (Memory.operandsWf s.caps s.req → Memory.operandsWf t.caps t.req)

/-- 00_scope.md R8 `MemWrite`, 10_state.md R30, 20_memory.md R40 (in place and below the length: log 2): an in-place write
sets exactly the bytes it names, in an operand buffer, and every other byte of every space reads as before. -/
def Obligations.InPlaceWritesSetExactlyTheirBytes : Prop :=
  ∀ (s t : State) (sp : Space) (off : Nat) (src : Bytes), s.pokeOperand sp off src = some t →
    operandSpace sp = true ∧ (∀ k b, src[k]? = some b → t.readByte sp (off + k) = some b) ∧
    ∀ sp' off', sp' ≠ sp ∨ off' < off ∨ off + src.length ≤ off' → t.readByte sp' off' = s.readByte sp' off'

/-- 60_exceptions.md R207, 10_state.md R39: every well-formed script runs to its end, one response for each request. -/
def Obligations.WellFormedScriptsRunToTheirEnd : Prop :=
  ∀ (qs : List Request) (s : State), (∀ q ∈ qs, q.wf s.caps = true) →
    ∃ rs t, runScript qs s = some (rs, t) ∧ rs.length = qs.length ∧ t.caps = s.caps

/-- 10_state.md R25, R30, R31, 44_bsj_frame.md R165: every length and count register counts its buffer or table wherever the
number fits 32 bits (where it does not, the value is free: log 5); after BENC `HEXLEN = 2*OUTLEN`. That `CLEN` and `ALEN`
are 32 bits wide is the model's choice (log 17). -/
def Obligations.LengthRegistersCountTheirBuffers : Prop :=
  ∀ s : State,
    (s.req.IN.length < 2 ^ 32 → s.INLEN.toNat = s.req.IN.length) ∧
    (s.req.PHN.length < 2 ^ 32 → s.PHNLEN.toNat = s.req.PHN.length) ∧
    (s.req.FLD.length < 2 ^ 32 → s.NF.toNat = s.req.FLD.length) ∧
    (s.resp.OUT.length < 2 ^ 32 → s.OUTLEN.toNat = s.resp.OUT.length) ∧
    (s.resp.OUTHEX.length < 2 ^ 32 → s.HEXLEN.toNat = s.resp.OUTHEX.length) ∧
    (s.resp.CKTXT.length < 2 ^ 32 → s.CKTLEN.toNat = s.resp.CKTXT.length) ∧
    (s.resp.PART.length < 2 ^ 32 → s.NP.toNat = s.resp.PART.length) ∧
    (∀ (i : Nat) (b : Bytes), b.length < 2 ^ 32 →
      (s.req.FLD[i]? = some b → (s.FLEN i).toNat = b.length) ∧ (s.resp.PART[i]? = some b → (s.PLEN i).toNat = b.length) ∧
      (s.resp.CELL[i]? = some b → (s.CLEN i).toNat = b.length) ∧ (s.resp.AD[i]? = some b → (s.ALEN i).toNat = b.length)) ∧
    ∀ t, exec .benc s = .next t → 2 * t.resp.OUT.length < 2 ^ 32 → t.HEXLEN.toNat = 2 * t.OUTLEN.toNat
end

