-- ==== Sys2Proof/Laws/Bytes.lean ====
section
/-! SUPPORT. One lemma for each rendering, checksum and transform of Machine/Ops.lean that says what it computes, for
callers to cite instead of unfolding. -/

namespace Sys2Proof.Machine

open Sys2Proof.Config

/-! ### 32-bit registers -/

/-- A number that fits its register is read back (R8). -/
theorem reg32_toNat {r : WideReg} {n : Nat} (h : n < 2 ^ 32) : (reg32 r n).toNat = n := by
  simp only [reg32, h, if_true, BitVec.toNat_ofNat]
  exact Nat.mod_eq_of_lt h

/-! ### Checksums -/

theorem foldl_add_eq (s : Bytes) (a : Byte) : s.foldl (· + ·) a = a + sum8 s := by
  induction s generalizing a with
  | nil => simp [sum8]
  | cons b s ih =>
    have h0 : sum8 (b :: s) = b + sum8 s := by
      show s.foldl (· + ·) (0 + b) = _
      rw [ih]; simp
    rw [List.foldl_cons, ih, h0, BitVec.add_assoc]

theorem sum8_cons (b : Byte) (s : Bytes) : sum8 (b :: s) = b + sum8 s := by
  show s.foldl (· + ·) (0 + b) = _
  rw [foldl_add_eq]; simp

/-- R104: concatenation. -/
theorem sum8_append (s t : Bytes) : sum8 (s ++ t) = sum8 s + sum8 t := by
  induction s with
  | nil => simp [sum8]
  | cons b s ih => rw [List.cons_append, sum8_cons, sum8_cons, ih, BitVec.add_assoc]

/-- R100: the sum of the byte values modulo 256. -/
theorem sum8_toNat (s : Bytes) : (sum8 s).toNat = (s.map BitVec.toNat).sum % 256 := by
  induction s with
  | nil => rfl
  | cons b s ih => rw [sum8_cons, BitVec.toNat_add, ih]; simp

theorem foldl_xor_eq (s : Bytes) (a : Byte) : s.foldl (· ^^^ ·) a = a ^^^ xor8 s := by
  induction s generalizing a with
  | nil => simp [xor8]
  | cons b s ih =>
    have h0 : xor8 (b :: s) = b ^^^ xor8 s := by
      show s.foldl (· ^^^ ·) (0 ^^^ b) = _
      rw [ih]; simp
    rw [List.foldl_cons, ih, h0, BitVec.xor_assoc]

theorem xor8_cons (b : Byte) (s : Bytes) : xor8 (b :: s) = b ^^^ xor8 s := by
  show s.foldl (· ^^^ ·) (0 ^^^ b) = _
  rw [foldl_xor_eq]; simp

/-- R104: concatenation. -/
theorem xor8_append (s t : Bytes) : xor8 (s ++ t) = xor8 s ^^^ xor8 t := by
  induction s with
  | nil => simp [xor8]
  | cons b s ih => rw [List.cons_append, xor8_cons, xor8_cons, ih, BitVec.xor_assoc]

/-! ### Renderings -/

@[simp] theorem hex2_length (b : Byte) : (hex2 b).length = 2 := rfl

@[simp] theorem be16_length (n : Nat) : (be16 n).length = 2 := rfl

/-- R8: two characters per byte. -/
theorem hexstr_length (s : Bytes) : (hexstr s).length = 2 * s.length := by
  induction s with
  | nil => rfl
  | cons b s ih => rw [hexstr, List.length_append, ih]; simp; omega

/-- R8: `hexstr` renders byte by byte. -/
theorem hexstr_eq_flatMap (s : Bytes) : hexstr s = s.flatMap hex2 := by
  induction s with
  | nil => rfl
  | cons b s ih => rw [hexstr, ih]; rfl

theorem digitVal_decDigit {d : Nat} (h : d < 10) : digitVal (decDigit d) = d := by
  simp [digitVal, decDigit, BitVec.toNat_ofNat]; omega

theorem isDigit_decDigit {d : Nat} (h : d < 10) : isDigit (decDigit d) = true := by
  simp [isDigit, decDigit, BitVec.toNat_ofNat]; omega

/-- A digit is the rendering of its value. -/
theorem decDigit_digitVal {b : Byte} (h : isDigit b = true) : decDigit (digitVal b) = b := by
  simp only [isDigit, decide_eq_true_eq] at h
  apply BitVec.eq_of_toNat_eq
  simp only [digitVal, decDigit, BitVec.toNat_ofNat]
  omega

theorem digitVal_lt {b : Byte} (h : isDigit b = true) : digitVal b < 10 := by
  simp only [isDigit, decide_eq_true_eq] at h
  simp only [digitVal]; omega

/-- The fuel does not matter once it exceeds the number. -/
theorem decFuel_eq {f g n : Nat} (hf : n < f) (hg : n < g) : decFuel f n = decFuel g n := by
  induction f generalizing g n with
  | zero => omega
  | succ f ih =>
    match g, hg with
    | g + 1, hg =>
      simp only [decFuel]
      split
      · rfl
      · rw [ih (g := g) (by omega) (by omega)]

/-- R8: the recursion of the decimal rendering. -/
theorem dec_eq (n : Nat) : dec n = if n < 10 then [decDigit n] else dec (n / 10) ++ [decDigit (n % 10)] := by
  conv_lhs => rw [dec, decFuel]
  split
  · rfl
  · rw [dec, decFuel_eq (f := n) (g := n / 10 + 1) (by omega) (by omega)]

theorem dec_ne_nil (n : Nat) : dec n ≠ [] := by
  rw [dec_eq]; split <;> simp

theorem dec_all_isDigit (n : Nat) : (dec n).all isDigit = true := by
  induction n using Nat.strongRecOn with
  | _ n ih =>
    rw [dec_eq]
    split
    · simp [isDigit_decDigit ‹n < 10›]
    · rw [List.all_append, ih _ (by omega)]
      simp [isDigit_decDigit (Nat.mod_lt n (by omega : 10 > 0))]

theorem decVal_append_digit (s : Bytes) (b : Byte) : decVal (s ++ [b]) = decVal s * 10 + digitVal b := by
  simp [decVal, List.foldl_append]

/-- The value of the decimal rendering is the number. -/
theorem decVal_dec (n : Nat) : decVal (dec n) = n := by
  induction n using Nat.strongRecOn with
  | _ n ih =>
    rw [dec_eq]
    split
    · simp [decVal, digitVal_decDigit ‹n < 10›]
    · rw [decVal_append_digit, ih _ (by omega), digitVal_decDigit (Nat.mod_lt n (by omega))]
      omega

/-! ### Join and split -/

theorem join_cons {c : Byte} {x : Bytes} {L : List Bytes} (h : L ≠ []) : join c (x :: L) = x ++ c :: join c L := by
  match L, h with
  | y :: rest, _ => rfl

/-- R8: `join` puts one separator between neighbours. -/
theorem join_eq_intercalate (c : Byte) (L : List Bytes) : join c L = List.intercalate [c] L := by
  induction L with
  | nil => rfl
  | cons x L ih =>
    match L with
    | [] => simp [join, List.intercalate]
    | y :: rest => rw [join_cons (by simp), ih]; simp [List.intercalate]

theorem split_ne_nil (c : Byte) (s : Bytes) : split c s ≠ [] := by
  match s with
  | [] => simp [split]
  | b :: rest =>
    rw [split]; split
    · simp
    · split <;> simp

theorem split_cons_sep (c : Byte) (s : Bytes) : split c (c :: s) = [] :: split c s := by simp [split]

/-- A run without the separator, then the separator: one element. -/
theorem split_append_sep {c : Byte} {p : Bytes} (h : c ∉ p) (s : Bytes) : split c (p ++ c :: s) = p :: split c s := by
  induction p with
  | nil => exact split_cons_sep c s
  | cons b p ih =>
    simp only [List.mem_cons, not_or] at h
    rw [List.cons_append, split, if_neg (fun hb => h.1 hb.symm), ih h.2]

theorem split_of_not_mem {c : Byte} {p : Bytes} (h : c ∉ p) : split c p = [p] := by
  induction p with
  | nil => rfl
  | cons b p ih =>
    simp only [List.mem_cons, not_or] at h
    rw [split, if_neg (fun hb => h.1 hb.symm), ih h.2]

/-- R8: splitting at the separator undoes the join of strings that do not hold it. -/
theorem split_join {c : Byte} {L : List Bytes} (hne : L ≠ []) (h : ∀ p ∈ L, c ∉ p) : split c (join c L) = L := by
  induction L with
  | nil => exact absurd rfl hne
  | cons x L ih =>
    match L with
    | [] => simpa [join] using split_of_not_mem (h x (by simp))
    | y :: rest =>
      rw [join_cons (by simp), split_append_sep (h x (by simp)), ih (by simp) (fun p hp => h p (by simp [hp]))]

/-- R8: `join(split(s,c), c) = s`. -/
theorem join_split (c : Byte) (s : Bytes) : join c (split c s) = s := by
  induction s with
  | nil => rfl
  | cons b s ih =>
    rw [split]; split
    · rw [join_cons (split_ne_nil c s), ih]; simp_all
    · match hs : split c s, split_ne_nil c s with
      | p :: ps, _ =>
        rw [hs] at ih
        match ps with
        | [] => simp [join] at ih ⊢; exact ih
        | q :: qs => rw [join_cons (by simp)] at ih ⊢; simp [← ih]

/-- R8: no element of a split holds the separator. -/
theorem not_mem_of_mem_split {c : Byte} {s p : Bytes} (h : p ∈ split c s) : c ∉ p := by
  induction s generalizing p with
  | nil => simp_all [split]
  | cons b s ih =>
    rw [split] at h
    split at h
    · rcases List.mem_cons.1 h with rfl | h
      · simp
      · exact ih h
    · rename_i hb
      split at h
      · simp only [List.mem_singleton] at h; subst h; simpa using fun he => hb he.symm
      · rename_i q qs hs
        rcases List.mem_cons.1 h with rfl | h
        · have := ih (p := q) (by simp [hs])
          simp only [List.mem_cons, not_or]; exact ⟨fun he => hb he.symm, this⟩
        · exact ih (by simp [hs, h])

/-- R132: `k` separators give `k + 1` elements. -/
theorem split_length (c : Byte) (s : Bytes) : (split c s).length = s.count c + 1 := by
  induction s with
  | nil => rfl
  | cons b s ih =>
    rw [split]; split
    · simp_all
    · rename_i hb
      match hs : split c s, split_ne_nil c s with
      | p :: ps, _ =>
        rw [hs] at ih
        rw [List.count_cons_of_ne hb]; simpa using ih

/-! ### Escape and unescape -/

/-- R150: the escape transform works byte by byte. -/
theorem escape_eq_flatMap (s : Bytes) : escape s = s.flatMap escByte := by
  induction s with
  | nil => rfl
  | cons b s ih => rw [escape, ih]; rfl

theorem escape_append (s t : Bytes) : escape (s ++ t) = escape s ++ escape t := by
  simp [escape_eq_flatMap]

/-- Scanning the escaped form of one byte gives that byte (R152). -/
theorem unescapeFrom_escByte (i : Nat) (b : Byte) (rest : Bytes) :
    unescapeFrom i (escByte b ++ rest) = (unescapeFrom (i + (escByte b).length) rest).map (b :: ·) := by
  unfold escByte
  split
  · subst_vars; simp [unescapeFrom]
  · split
    · subst_vars; simp [unescapeFrom]
    · rename_i h1 h2
      match rest with
      | [] => simp only [List.append_nil, unescapeFrom, if_neg h2]; rfl
      | c :: r => simp only [List.cons_append, List.nil_append, unescapeFrom, if_neg h2, List.length_singleton]

theorem unescapeFrom_escape_append (i : Nat) (s rest : Bytes) :
    unescapeFrom i (escape s ++ rest) = (unescapeFrom (i + (escape s).length) rest).map (s ++ ·) := by
  induction s generalizing i with
  | nil => cases h : unescapeFrom i rest <;> simp [escape, h, Except.map]
  | cons b s ih =>
    rw [escape, List.append_assoc, unescapeFrom_escByte, ih, List.length_append, Nat.add_assoc]
    cases unescapeFrom (i + ((escByte b).length + (escape s).length)) rest <;> simp [Except.map]

/-- R154: the two functions undo each other in this order. -/
theorem unescape_escape (s : Bytes) : unescape (escape s) = .ok s := by
  have h := unescapeFrom_escape_append 0 s []
  simpa [unescape, unescapeFrom, Except.map] using h

end Sys2Proof.Machine
end

