-- ==== Sys2Proof/Laws/AsciiFrame.lean ====
section
/-! SUPPORT. What each helper of the ASCII codec computes: the terminator and checksum split of R131, the groups of R135
and R136, the timestamp of R137, the header of R139 (42_ascii_frame.md). -/

namespace Sys2Proof.Machine

open Sys2Proof.Config

/-! ### Step 1 of ADEC (R131) -/

theorem stripCrlf_append (b : Bytes) : stripCrlf (b ++ [0x0D, 0x0A]) = b := by
  simp [stripCrlf]

/-- Only a final CRLF pair is removed (D12). -/
theorem stripCrlf_of_not_suffix {b : Bytes} (h : ¬ [0x0D, 0x0A] <:+ b) : stripCrlf b = b := by
  rw [stripCrlf, if_neg]
  intro he
  exact h ⟨b.take (b.length - 2), by rw [← he, List.take_append_drop]⟩

theorem splitLastStar_eq_none {s : Bytes} (h : 0x2A ∉ s) : splitLastStar s = none := by
  induction s with
  | nil => rfl
  | cons b s ih =>
    simp only [List.mem_cons, not_or] at h
    rw [splitLastStar, ih h.2]
    exact if_neg (fun e => h.1 e.symm)

/-- The split is at the last `*`. -/
theorem splitLastStar_append (p : Bytes) {q : Bytes} (h : 0x2A ∉ q) : splitLastStar (p ++ 0x2A :: q) = some (p, q) := by
  induction p with
  | nil => rw [List.nil_append, splitLastStar, splitLastStar_eq_none h]; rfl
  | cons b p ih => rw [List.cons_append, splitLastStar, ih]

/-- Every text has no `*`, or a last one. -/
theorem lastStar_cases (s : Bytes) : 0x2A ∉ s ∨ ∃ p q, s = p ++ 0x2A :: q ∧ 0x2A ∉ q := by
  induction s with
  | nil => exact .inl (by simp)
  | cons b s ih =>
    rcases ih with h | ⟨p, q, rfl, hq⟩
    · by_cases hb : b = 0x2A
      · exact .inr ⟨[], s, by simp [hb], h⟩
      · exact .inl (by rw [List.mem_cons]; exact fun e => e.elim (fun e => hb e.symm) h)
    · exact .inr ⟨b :: p, q, rfl, hq⟩

/-- A received text without a `*`. -/
theorem receive_of_no_star {s : Bytes} (h : 0x2A ∉ stripCrlf s) :
    receive s = { found := false, cktxt := [], cov := [], ftxt := stripCrlf s } := by
  rw [receive, splitLastStar_eq_none h]

/-- A received text with a `*`. -/
theorem receive_of_star {s p q : Bytes} (hs : stripCrlf s = p ++ 0x2A :: q) (h : 0x2A ∉ q) :
    receive s = { found := true, cktxt := q, cov := p ++ [0x2A], ftxt := p } := by
  rw [receive, hs, splitLastStar_append p h]

/-! ### Groups (R135, R136) -/

theorem group_of_absent {index n : Nat} {parts : List Bytes} (h : parts.length ≤ index) :
    group index n parts = none := by
  rw [group, List.getElem?_eq_none h]

theorem group_of_part {index n : Nat} {parts : List Bytes} {p : Bytes} (h : parts[index]? = some p) :
    group index n parts = if (split 0x7C p).length < n then none else some ((split 0x7C p).take n) := by
  rw [group, h]

/-! ### Timestamp (R137) -/

/-- The days of a month are the calendar's (R138). -/
theorem daysInMonth_eq {yy mo : Nat} (h1 : 1 ≤ mo) (h12 : mo ≤ 12) :
    daysInMonth yy mo = [31, 28, 31, 30, 31, 30, 31, 31, 30, 31, 30, 31].getD (mo - 1) 0 +
      (if mo = 2 ∧ yy % 4 = 0 then 1 else 0) := by
  have : mo = 1 ∨ mo = 2 ∨ mo = 3 ∨ mo = 4 ∨ mo = 5 ∨ mo = 6 ∨ mo = 7 ∨ mo = 8 ∨ mo = 9 ∨ mo = 10 ∨ mo = 11 ∨ mo = 12 := by
    omega
  rcases this with h | h | h | h | h | h | h | h | h | h | h | h <;> subst h <;> simp [daysInMonth]
  split <;> rfl

/-- A string of digits is the rendering of its digit values. -/
theorem map_decDigit_digitVal {s : Bytes} (h : s.all isDigit = true) : (s.map digitVal).map decDigit = s := by
  rw [List.map_map]
  conv_rhs => rw [← List.map_id s]
  apply List.map_congr_left
  intro b hb
  exact decDigit_digitVal (List.all_eq_true.1 h b hb)

/-- The value of a rendered digit string. -/
theorem decVal_map_decDigit {ds : List Nat} (h : ∀ d ∈ ds, d < 10) :
    decVal (ds.map decDigit) = ds.foldl (fun v d => 10 * v + d) 0 := by
  suffices ∀ v, (ds.map decDigit).foldl (fun v b => v * 10 + digitVal b) v = ds.foldl (fun v d => 10 * v + d) v from this 0
  induction ds with
  | nil => intro v; rfl
  | cons d ds ih =>
    intro v
    simp only [List.map_cons, List.foldl_cons]
    rw [digitVal_decDigit (h d (by simp)), ih (fun x hx => h x (by simp [hx])), Nat.mul_comm]

theorem all_isDigit_map {ds : List Nat} (h : ∀ d ∈ ds, d < 10) : (ds.map decDigit).all isDigit = true := by
  simp only [List.all_map, List.all_eq_true, Function.comp_apply]
  exact fun d hd => isDigit_decDigit (h d hd)

/-! ### Header (R139) -/

/-- A header parses exactly when it has its form, to its identifier byte and its number. -/
theorem hdrParse_eq_some {h : Bytes} {id : Byte} {v : Nat} :
    hdrParse h = some (id, v) ↔
      ∃ digits, h = 0x24 :: 0x24 :: id :: digits ∧ digits ≠ [] ∧ digits.all isDigit = true ∧ v = decVal digits := by
  constructor
  · intro e
    match h, e with
    | d1 :: d2 :: i :: digits, e =>
      simp only [hdrParse] at e
      split at e
      · rename_i hc
        obtain ⟨rfl, rfl, hne, hd⟩ := hc
        simp only [Option.some.injEq, Prod.mk.injEq] at e
        obtain ⟨rfl, rfl⟩ := e
        exact ⟨digits, rfl, hne, hd, rfl⟩
      · cases e
    | [], e => simp [hdrParse] at e
    | [_], e => simp [hdrParse] at e
    | [_, _], e => simp [hdrParse] at e
  · rintro ⟨digits, rfl, hne, hd, rfl⟩
    exact if_pos ⟨rfl, rfl, hne, hd⟩

/-! ### The encoder's frame (R121) -/

theorem asciiBody_length (fields : List Bytes) : (asciiBody fields).length = (join 0x2C fields).length + 3 := by
  simp [asciiBody]

theorem asciiFrame_length (id : Byte) (fields : List Bytes) :
    (asciiFrame id fields).length = 3 + (dec (asciiTotal fields)).length + asciiTotal fields := by
  simp [asciiFrame, asciiCovered, asciiHeader, asciiTotal]; omega

end Sys2Proof.Machine
end

