-- ==== Sys2Proof/Laws/Flags.lean ====
section
/-! SUPPORT. Each bit of `FLAGS` is its condition (10_state.md R27). -/

namespace Sys2Proof.Machine

theorem flagBit_getLsbD (b : Bool) (p k : Nat) (hp : p < 16) : (flagBit b p).getLsbD k = (b && decide (k = p)) := by
  unfold flagBit
  cases b
  · simp
  · simp only [if_true, BitVec.getLsbD_ofNat, Nat.testBit_two_pow, Bool.true_and]
    by_cases h : k = p
    · subst h; simp [hp]
    · have : ¬ p = k := fun e => h e.symm
      simp [h, this]

/-- The nine named bits, and no other. -/
theorem flags_getLsbD (c : Conditions) (k : Nat) : c.flags.getLsbD k =
    (c.ckFound && decide (k = 0) || c.ckValid && decide (k = 1) || c.ckMismatch && decide (k = 2) ||
      c.tsBad && decide (k = 3) || c.cellOk && decide (k = 4) || c.adOk && decide (k = 5) ||
      c.lenOk && decide (k = 6) || c.phoneOk && decide (k = 7) || c.hdrOk && decide (k = 8)) := by
  simp [Conditions.flags, flagBit_getLsbD]

@[simp] theorem flags_ckFound (c : Conditions) : c.flags[0] = c.ckFound := by
  rw [← BitVec.getLsbD_eq_getElem, flags_getLsbD]; simp
@[simp] theorem flags_ckValid (c : Conditions) : c.flags[1] = c.ckValid := by
  rw [← BitVec.getLsbD_eq_getElem, flags_getLsbD]; simp
@[simp] theorem flags_ckMismatch (c : Conditions) : c.flags[2] = c.ckMismatch := by
  rw [← BitVec.getLsbD_eq_getElem, flags_getLsbD]; simp
@[simp] theorem flags_tsBad (c : Conditions) : c.flags[3] = c.tsBad := by
  rw [← BitVec.getLsbD_eq_getElem, flags_getLsbD]; simp
@[simp] theorem flags_cellOk (c : Conditions) : c.flags[4] = c.cellOk := by
  rw [← BitVec.getLsbD_eq_getElem, flags_getLsbD]; simp
@[simp] theorem flags_adOk (c : Conditions) : c.flags[5] = c.adOk := by
  rw [← BitVec.getLsbD_eq_getElem, flags_getLsbD]; simp
@[simp] theorem flags_lenOk (c : Conditions) : c.flags[6] = c.lenOk := by
  rw [← BitVec.getLsbD_eq_getElem, flags_getLsbD]; simp
@[simp] theorem flags_phoneOk (c : Conditions) : c.flags[7] = c.phoneOk := by
  rw [← BitVec.getLsbD_eq_getElem, flags_getLsbD]; simp
@[simp] theorem flags_hdrOk (c : Conditions) : c.flags[8] = c.hdrOk := by
  rw [← BitVec.getLsbD_eq_getElem, flags_getLsbD]; simp

/-- The reserved bits 15:9 are 0. -/
theorem flags_reserved (c : Conditions) {k : Nat} (h : 9 ≤ k) : c.flags.getLsbD k = false := by
  rw [flags_getLsbD]
  simp [show ¬ k = 0 by omega, show ¬ k = 1 by omega, show ¬ k = 2 by omega, show ¬ k = 3 by omega,
    show ¬ k = 4 by omega, show ¬ k = 5 by omega, show ¬ k = 6 by omega, show ¬ k = 7 by omega, show ¬ k = 8 by omega]

end Sys2Proof.Machine
end

