-- ==== Sys2Proof/Laws/Outcomes.lean ====
section
/-! SUPPORT. How an operation ends, said once: one lemma for each shared end and one inversion lemma for each meaning that
has more than one end. -/

namespace Sys2Proof.Machine

open Sys2Proof.Config

theorem next_inj {s t : State} (h : (Host.Outcome.next s : Host.Outcome State Fault Refusal) = .next t) : s = t := by
  cases h; rfl

/-- A run goes on from the state its first step gives. -/
theorem run_succ_of_next {M : Host.Core} {s s' : M.State} (k : Nat) (h : M.step s = .next s') :
    M.run (k + 1) s = M.run k s' := by
  simp only [Host.Core.run, h]

theorem answer_eq (r : Response) (s : State) : answer r s = .next { s with resp := r } := rfl

theorem answerAdvancing_eq (r : Response) (s : State) :
    answerAdvancing r s = .next { s with resp := r, ID := adv s.ID } := rfl

theorem raiseFatal_eq (e : Fatal) (s : State) : raiseFatal e s = .next { s with resp := fatalResponse e } := rfl

/-- `STATUS` after a fatal result is never OK (R201). -/
theorem Fatal.code_ne_zero (e : Fatal) : e.code ≠ 0 := by cases e <;> simp [Fatal.code]

@[simp] theorem fatalResponse_STATUS (e : Fatal) : (fatalResponse e).STATUS = e.code := rfl
@[simp] theorem fatalResponse_INFO (e : Fatal) : (fatalResponse e).INFO = e.info := rfl
@[simp] theorem fatalResponse_FLAGS (e : Fatal) : (fatalResponse e).FLAGS = 0 := rfl

/-- AENC ends with a frame and an advance, or with `CapacityExceeded` (R121, R122). -/
theorem execAenc_cases (s : State) :
    (s.caps.maxOut < (asciiFrame s.ID s.req.FLD).length ∧
      execAenc s = .next { s with resp := fatalResponse (.capacityExceeded (asciiFrame s.ID s.req.FLD).length) }) ∨
    ((asciiFrame s.ID s.req.FLD).length ≤ s.caps.maxOut ∧
      execAenc s = .next { s with
        ID := adv s.ID
        resp := { Response.cleared with
          OUT := asciiFrame s.ID s.req.FLD
          RB := s.ID
          CKC := sum8 (asciiCovered s.ID s.req.FLD)
          TOTAL := reg32 .TOTAL (asciiTotal s.req.FLD) } }) := by
  unfold execAenc fieldList
  by_cases h : s.caps.maxOut < (asciiFrame s.ID s.req.FLD).length
  · exact .inl ⟨h, by simp only [if_pos h]; rfl⟩
  · exact .inr ⟨by omega, by simp only [if_neg h]; rfl⟩

/-- ADEC ends with too few parts, too many, or the report (R130). -/
theorem execAdec_cases (s : State) :
    let f := receive s.req.IN
    let parts := split 0x2C f.ftxt
    (parts.length < 16 ∧ execAdec s = .next { s with resp := fatalResponse (.tooFewFields parts.length) }) ∨
    (16 ≤ parts.length ∧ s.caps.maxPart < parts.length ∧
      execAdec s = .next { s with resp := fatalResponse (.capacityExceeded parts.length) }) ∨
    (16 ≤ parts.length ∧ parts.length ≤ s.caps.maxPart ∧
      execAdec s = .next { s with resp := asciiResponse f parts }) := by
  intro f parts
  have he : execAdec s = if parts.length < 16 then raiseFatal (.tooFewFields parts.length) s
      else if s.caps.maxPart < parts.length then raiseFatal (.capacityExceeded parts.length) s
      else answer (asciiResponse f parts) s := rfl
  rw [he]
  by_cases h : parts.length < 16
  · exact .inl ⟨h, if_pos h⟩
  · rw [if_neg h]
    by_cases h' : s.caps.maxPart < parts.length
    · exact .inr (.inl ⟨by omega, h', if_pos h'⟩)
    · exact .inr (.inr ⟨by omega, by omega, if_neg h'⟩)

/-- ESC ends with the escaped input or with `CapacityExceeded` (R151). -/
theorem execEsc_cases (s : State) :
    (s.caps.maxOut < (escape s.req.IN).length ∧
      execEsc s = .next { s with resp := fatalResponse (.capacityExceeded (escape s.req.IN).length) }) ∨
    ((escape s.req.IN).length ≤ s.caps.maxOut ∧
      execEsc s = .next { s with resp := { Response.cleared with OUT := escape s.req.IN } }) := by
  unfold execEsc inBytes
  by_cases h : s.caps.maxOut < (escape s.req.IN).length
  · exact .inl ⟨h, by simp only [if_pos h]; rfl⟩
  · exact .inr ⟨by omega, by simp only [if_neg h]; rfl⟩

/-- UNESC ends at the bad byte, with `CapacityExceeded`, or with the unescaped input (R153, R207). -/
theorem execUnesc_cases (s : State) :
    (∃ i, unescape s.req.IN = .error i ∧ execUnesc s = .next { s with resp := fatalResponse (.unescapedControlByte i) }) ∨
    (∃ o, unescape s.req.IN = .ok o ∧ s.caps.maxOut < o.length ∧
      execUnesc s = .next { s with resp := fatalResponse (.capacityExceeded o.length) }) ∨
    (∃ o, unescape s.req.IN = .ok o ∧ o.length ≤ s.caps.maxOut ∧
      execUnesc s = .next { s with resp := { Response.cleared with OUT := o } }) := by
  unfold execUnesc inBytes
  match hu : unescape s.req.IN with
  | .error i => exact .inl ⟨i, rfl, rfl⟩
  | .ok o =>
    by_cases h : s.caps.maxOut < o.length
    · exact .inr (.inl ⟨o, rfl, h, by simp only [if_pos h]; rfl⟩)
    · exact .inr (.inr ⟨o, rfl, by omega, by simp only [if_neg h]; rfl⟩)

/-- BENC ends with the first failing check of phone, serial, body length and capacity, or with the frame (R161, R166). -/
theorem execBenc_cases (s : State) :
    (∃ k, phoneFault s.req.PHN = some k ∧ execBenc s = .next { s with resp := fatalResponse (.invalidPhoneNumber k) }) ∨
    (phoneFault s.req.PHN = none ∧ (s.req.SER.toInt < 0 ∨ 65535 < s.req.SER.toInt) ∧
      execBenc s = .next { s with resp := fatalResponse (.invalidSerial s.req.SER) }) ∨
    (∃ n : Nat, phoneFault s.req.PHN = none ∧ s.req.SER.toInt = n ∧ n ≤ 65535 ∧ 65535 < s.req.IN.length + 1 ∧
      execBenc s = .next { s with resp := fatalResponse (.bodyTooLong (s.req.IN.length + 1)) }) ∨
    (∃ n : Nat, phoneFault s.req.PHN = none ∧ s.req.SER.toInt = n ∧ n ≤ 65535 ∧ s.req.IN.length + 1 ≤ 65535 ∧
      s.caps.maxOut < (bsjFrame s.req.IN s.req.PHN n).length ∧
      execBenc s = .next { s with resp := fatalResponse (.capacityExceeded (bsjFrame s.req.IN s.req.PHN n).length) }) ∨
    (∃ n : Nat, phoneFault s.req.PHN = none ∧ s.req.SER.toInt = n ∧ n ≤ 65535 ∧ s.req.IN.length + 1 ≤ 65535 ∧
      (bsjFrame s.req.IN s.req.PHN n).length ≤ s.caps.maxOut ∧
      execBenc s = .next { s with resp := bsjEncoded s.req.IN s.req.PHN n }) := by
  have hb : (bsjBody s.req.IN).length = s.req.IN.length + 1 := rfl
  rcases hp : phoneFault s.req.PHN with _ | k
  · by_cases hs : s.req.SER.toInt < 0 ∨ 65535 < s.req.SER.toInt
    · exact .inr (.inl ⟨rfl, hs, by
        simp only [execBenc, phoneText, serialInt, hp]; exact if_pos hs⟩)
    · obtain ⟨n, hn⟩ := Int.eq_ofNat_of_zero_le (a := s.req.SER.toInt) (by omega)
      have hn' : n ≤ 65535 := by omega
      have he : execBenc s = if 65535 < s.req.IN.length + 1 then raiseFatal (.bodyTooLong (s.req.IN.length + 1)) s
          else if s.caps.maxOut < (bsjFrame s.req.IN s.req.PHN n).length then
            raiseFatal (.capacityExceeded (bsjFrame s.req.IN s.req.PHN n).length) s
          else answer (bsjEncoded s.req.IN s.req.PHN n) s := by
        simp only [execBenc, phoneText, serialInt, inBytes, hp, if_neg hs, hb, bsjMaxBody]
        simp only [hn, Int.toNat_natCast]
      rw [he]
      by_cases hl : 65535 < s.req.IN.length + 1
      · exact .inr (.inr (.inl ⟨n, rfl, hn, hn', hl, if_pos hl⟩))
      · rw [if_neg hl]
        by_cases hc : s.caps.maxOut < (bsjFrame s.req.IN s.req.PHN n).length
        · exact .inr (.inr (.inr (.inl ⟨n, rfl, hn, hn', by omega, hc, if_pos hc⟩)))
        · exact .inr (.inr (.inr (.inr ⟨n, rfl, hn, hn', by omega, by omega, if_neg hc⟩)))
  · exact .inl ⟨k, rfl, by simp only [execBenc, phoneText, hp]; rfl⟩

/-- BDEC ends with the first failing check of flags, interior flag, escape, length and capacity, or with the report
(R170, R207). -/
theorem execBdec_cases (s : State) :
    let f := s.req.IN
    let bad := f.length < 2 ∨ f.head? ≠ some 0x7E ∨ f.getLast? ≠ some 0x7E
    let flagAt := (bsjInner f).findIdx? (fun b => b == 0x7E)
    (bad ∧ execBdec s = .next { s with resp := fatalResponse (.missingFlag f.length) }) ∨
    (∃ j, ¬ bad ∧ flagAt = some j ∧ execBdec s = .next { s with resp := fatalResponse (.interiorFlag (j + 1)) }) ∨
    (∃ i, ¬ bad ∧ flagAt = none ∧ unescape (bsjInner f) = .error i ∧
      execBdec s = .next { s with resp := fatalResponse (.unescapedControlByte (i + 1)) }) ∨
    (∃ u, ¬ bad ∧ flagAt = none ∧ unescape (bsjInner f) = .ok u ∧ u.length < 14 ∧
      execBdec s = .next { s with resp := fatalResponse (.truncated u.length) }) ∨
    (∃ u, ¬ bad ∧ flagAt = none ∧ unescape (bsjInner f) = .ok u ∧ 14 ≤ u.length ∧
      s.caps.maxOut < (bsjBodyOf u).tail.length ∧
      execBdec s = .next { s with resp := fatalResponse (.capacityExceeded (bsjBodyOf u).tail.length) }) ∨
    (∃ u, ¬ bad ∧ flagAt = none ∧ unescape (bsjInner f) = .ok u ∧ 14 ≤ u.length ∧
      (bsjBodyOf u).tail.length ≤ s.caps.maxOut ∧ execBdec s = .next { s with resp := bsjDecoded u }) := by
  intro f bad flagAt
  unfold execBdec inBytes
  by_cases hb : f.length < 2 ∨ f.head? ≠ some 0x7E ∨ f.getLast? ≠ some 0x7E
  · exact .inl ⟨hb, by simp only [f] at hb; simp only [if_pos hb]; rfl⟩
  · have hb' := hb
    simp only [f] at hb'
    simp only [if_neg hb']
    match hj : (bsjInner s.req.IN).findIdx? (fun b => b == 0x7E) with
    | some j => exact .inr (.inl ⟨j, hb, hj, rfl⟩)
    | none =>
      match hu : unescape (bsjInner s.req.IN) with
      | .error i => exact .inr (.inr (.inl ⟨i, hb, hj, rfl, rfl⟩))
      | .ok u =>
        by_cases hl : u.length < 14
        · exact .inr (.inr (.inr (.inl ⟨u, hb, hj, rfl, hl, by simp only [if_pos hl]; rfl⟩)))
        · by_cases hc : s.caps.maxOut < (bsjBodyOf u).tail.length
          · exact .inr (.inr (.inr (.inr (.inl ⟨u, hb, hj, rfl, by omega, hc, by
              simp only [if_neg hl, if_pos hc]; rfl⟩))))
          · exact .inr (.inr (.inr (.inr (.inr ⟨u, hb, hj, rfl, by omega, by omega, by
              simp only [if_neg hl, if_neg hc]; rfl⟩))))

end Sys2Proof.Machine
end

