-- ==== Sys2Proof/Laws/State.lean ====
section
/-! SUPPORT. One lemma for each field of the state under each named update, true by unfolding. -/

namespace Sys2Proof.Machine

variable (s : State)

/-- What a guarded result answers. -/
theorem guarded_eq_some {α : Type} {p : Prop} [Decidable p] {a b : α} :
    (if p then some a else none) = some b ↔ p ∧ b = a := by
  split
  · rename_i h; exact ⟨fun e => ⟨h, (Option.some.inj e).symm⟩, fun e => congrArg some e.2.symm⟩
  · rename_i h; exact ⟨fun e => (by cases e), fun e => absurd e.1 h⟩

@[simp] theorem State.writeOp_ID (op : BitVec 4) : (s.writeOp op).ID = s.ID := rfl
@[simp] theorem State.writeOp_resp (op : BitVec 4) : (s.writeOp op).resp = s.resp := rfl
@[simp] theorem State.writeOp_caps (op : BitVec 4) : (s.writeOp op).caps = s.caps := rfl
@[simp] theorem State.writeOp_OP (op : BitVec 4) : (s.writeOp op).req.OP = op := rfl
@[simp] theorem State.writeOp_IN (op : BitVec 4) : (s.writeOp op).req.IN = s.req.IN := rfl
@[simp] theorem State.writeOp_PHN (op : BitVec 4) : (s.writeOp op).req.PHN = s.req.PHN := rfl
@[simp] theorem State.writeOp_SER (op : BitVec 4) : (s.writeOp op).req.SER = s.req.SER := rfl
@[simp] theorem State.writeOp_FLD (op : BitVec 4) : (s.writeOp op).req.FLD = s.req.FLD := rfl

@[simp] theorem State.writeSer_ID (v : Word) : (s.writeSer v).ID = s.ID := rfl
@[simp] theorem State.writeSer_resp (v : Word) : (s.writeSer v).resp = s.resp := rfl
@[simp] theorem State.writeSer_caps (v : Word) : (s.writeSer v).caps = s.caps := rfl
@[simp] theorem State.writeSer_OP (v : Word) : (s.writeSer v).req.OP = s.req.OP := rfl
@[simp] theorem State.writeSer_IN (v : Word) : (s.writeSer v).req.IN = s.req.IN := rfl
@[simp] theorem State.writeSer_PHN (v : Word) : (s.writeSer v).req.PHN = s.req.PHN := rfl
@[simp] theorem State.writeSer_SER (v : Word) : (s.writeSer v).req.SER = v := rfl
@[simp] theorem State.writeSer_FLD (v : Word) : (s.writeSer v).req.FLD = s.req.FLD := rfl

@[simp] theorem State.withFetchWord_ID (n w : Nat) : (s.withFetchWord n w).ID = s.ID := rfl
@[simp] theorem State.withFetchWord_resp (n w : Nat) : (s.withFetchWord n w).resp = s.resp := rfl
@[simp] theorem State.withFetchWord_caps (n w : Nat) : (s.withFetchWord n w).caps = s.caps := rfl
@[simp] theorem State.withFetchWord_OP (n w : Nat) : (s.withFetchWord n w).req.OP = BitVec.ofNat 4 w := rfl
@[simp] theorem State.withFetchWord_IN (n w : Nat) : (s.withFetchWord n w).req.IN = s.req.IN := rfl
@[simp] theorem State.withFetchWord_PHN (n w : Nat) : (s.withFetchWord n w).req.PHN = s.req.PHN := rfl
@[simp] theorem State.withFetchWord_SER (n w : Nat) : (s.withFetchWord n w).req.SER = s.req.SER := rfl
@[simp] theorem State.withFetchWord_FLD (n w : Nat) : (s.withFetchWord n w).req.FLD = s.req.FLD := rfl

@[simp] theorem State.afterReset_ID : s.afterReset.ID = 0x41 := rfl
@[simp] theorem State.afterReset_req : s.afterReset.req = Operands.cleared := rfl
@[simp] theorem State.afterReset_resp : s.afterReset.resp = Response.cleared := rfl
@[simp] theorem State.afterReset_caps : s.afterReset.caps = s.caps := rfl

/-- Loading `IN` succeeds exactly when the bytes fit, and changes nothing else. -/
theorem State.loadIn_eq_some {s t : State} {b : Bytes} :
    s.loadIn b = some t ↔ inFits s.caps b ∧ t = { s with req := { s.req with IN := b } } :=
  guarded_eq_some

/-- Loading `PHN` succeeds exactly when the bytes fit, and changes nothing else. -/
theorem State.loadPhn_eq_some {s t : State} {b : Bytes} :
    s.loadPhn b = some t ↔ phnFits s.caps b ∧ t = { s with req := { s.req with PHN := b } } :=
  guarded_eq_some

/-- Loading `FLD` succeeds exactly when the fields fit, and changes nothing else. -/
theorem State.loadFld_eq_some {s t : State} {f : List Bytes} :
    s.loadFld f = some t ↔ fldFits s.caps f ∧ t = { s with req := { s.req with FLD := f } } :=
  guarded_eq_some

/-- Loading a request succeeds exactly when it is well formed, and writes operand registers only. -/
theorem loadRequest_eq_some {q : Request} {s t : State} :
    loadRequest q s = some t ↔ q.wf s.caps = true ∧ t = { s with req := requestOperands q s.req } :=
  guarded_eq_some

end Sys2Proof.Machine
end

