-- ==== Sys2Proof/Laws/Memory.lean ====
section
/-! SUPPORT. The byte spaces: reads after writes, the cells' rising offsets, and that every operation over memory keeps
the form `Memory.wf` (10_state.md R25, R30, R31; 20_memory.md R40). -/

namespace Sys2Proof.Machine

open Sys2Proof.Config

/-! ### Reading and writing a buffer (R8) -/

/-- `MemRead(B, 0, len)` is the buffer's content. -/
theorem memRead_all (b : Bytes) : memRead b 0 b.length = some b := by simp [memRead]

theorem memRead_eq_some {b r : Bytes} {off n : Nat} :
    memRead b off n = some r ↔ off + n ≤ b.length ∧ r = (b.drop off).take n := guarded_eq_some

theorem memWrite_eq_some {b src r : Bytes} {off : Nat} :
    memWrite b off src = some r ↔
      off + src.length ≤ b.length ∧ r = b.take off ++ src ++ b.drop (off + src.length) := guarded_eq_some

/-- A write keeps the length register's value. -/
theorem memWrite_length {b src r : Bytes} {off : Nat} (h : memWrite b off src = some r) : r.length = b.length := by
  obtain ⟨hl, rfl⟩ := memWrite_eq_some.1 h
  simp; omega

/-- A read after a write to the same place gives what was written. -/
theorem memRead_memWrite {b src r : Bytes} {off : Nat} (h : memWrite b off src = some r) :
    memRead r off src.length = some src := by
  have hr := memWrite_length h
  obtain ⟨hl, rfl⟩ := memWrite_eq_some.1 h
  refine memRead_eq_some.2 ⟨by omega, ?_⟩
  have ht : (b.take off).length = off := by simp; omega
  rw [List.append_assoc, List.drop_append_of_le_length (by omega), List.drop_of_length_le (by omega)]
  simp

/-- A write leaves every other byte alone. -/
theorem memWrite_getElem?_of_outside {b src r : Bytes} {off k : Nat} (h : memWrite b off src = some r)
    (hk : k < off ∨ off + src.length ≤ k) : r[k]? = b[k]? := by
  obtain ⟨hl, rfl⟩ := memWrite_eq_some.1 h
  have ht : (b.take off).length = off := by simp; omega
  rcases hk with hk | hk
  · rw [List.append_assoc, List.getElem?_append_left (by omega), List.getElem?_take, if_pos hk]
  · rw [List.getElem?_append_right (by simp; omega), List.getElem?_drop]
    congr 1
    simp; omega

/-! ### Cells -/

/-- The cells of a byte string start at the given offset. -/
theorem le_of_mem_cellsFrom {n : Nat} {b : Bytes} {c : Host.Cell} (h : c ∈ cellsFrom n b) : n ≤ c.1 := by
  induction b generalizing n with
  | nil => cases h
  | cons x b ih =>
    rcases List.mem_cons.1 h with rfl | h
    · exact Nat.le_refl n
    · exact Nat.le_of_succ_le (ih h)

/-- A space lists its cells at strictly rising offsets. -/
theorem cells_rising (s : State) (sp : Space) : (s.cells sp).Pairwise (fun a b => a.1 < b.1) := by
  unfold State.cells
  generalize s.space sp = b
  suffices ∀ n, (cellsFrom n b).Pairwise (fun a b => a.1 < b.1) from this 0
  induction b with
  | nil => exact fun _ => List.Pairwise.nil
  | cons x b ih => exact fun n => List.Pairwise.cons (fun c hc => le_of_mem_cellsFrom hc) (ih (n + 1))

/-- Two spaces that read alike at every offset are the same bytes: equal memories are equal data. -/
theorem space_eq_of_readByte {s t : State} {sp : Space} (h : ∀ off, s.readByte sp off = t.readByte sp off) :
    s.space sp = t.space sp := List.ext_getElem? h

/-- A space has no byte at or above its length (R40). -/
theorem readByte_eq_none {s : State} {sp : Space} {off : Nat} :
    s.readByte sp off = none ↔ (s.space sp).length ≤ off := List.getElem?_eq_none_iff

/-! ### The form of memory -/

theorem operandsWf_cleared (c : Caps) : Memory.operandsWf c Operands.cleared := by
  simp [Memory.operandsWf, Operands.cleared, inFits, phnFits, fldFits, fits]

theorem responseWf_cleared (c : Caps) : Memory.responseWf c Response.cleared := by
  simp [Memory.responseWf, Response.cleared]

theorem responseWf_fatal (c : Caps) (e : Fatal) : Memory.responseWf c (fatalResponse e) := responseWf_cleared c

/-- A result that fits keeps the form of memory. -/
theorem wf_answer {r : Response} {s t : State} (h : Memory.wf s) (hr : Memory.responseWf s.caps r)
    (ht : answer r s = .next t) : Memory.wf t := by
  have := next_inj ht; subst this
  exact ⟨h.1, h.2.1, hr⟩

theorem wf_answerAdvancing {r : Response} {s t : State} (h : Memory.wf s) (hr : Memory.responseWf s.caps r)
    (ht : answerAdvancing r s = .next t) : Memory.wf t := by
  have := next_inj ht; subst this
  exact ⟨h.1, h.2.1, hr⟩

theorem wf_raiseFatal {e : Fatal} {s t : State} (h : Memory.wf s) (ht : raiseFatal e s = .next t) : Memory.wf t :=
  wf_answer h (responseWf_fatal _ _) ht

theorem wf_writeOp {s : State} (op : BitVec 4) (h : Memory.wf s) : Memory.wf (s.writeOp op) := h

theorem wf_writeSer {s : State} (v : Word) (h : Memory.wf s) : Memory.wf (s.writeSer v) := h

theorem wf_withFetchWord {s : State} (n w : Nat) (h : Memory.wf s) : Memory.wf (s.withFetchWord n w) := h

theorem wf_afterReset {s : State} (h : s.caps.ok) : Memory.wf s.afterReset :=
  ⟨h, operandsWf_cleared _, responseWf_cleared _⟩

theorem wf_loadIn {s t : State} {b : Bytes} (h : Memory.wf s) (ht : s.loadIn b = some t) : Memory.wf t := by
  obtain ⟨hb, rfl⟩ := State.loadIn_eq_some.1 ht
  exact ⟨h.1, ⟨hb, h.2.1.2⟩, h.2.2⟩

theorem wf_loadPhn {s t : State} {b : Bytes} (h : Memory.wf s) (ht : s.loadPhn b = some t) : Memory.wf t := by
  obtain ⟨hb, rfl⟩ := State.loadPhn_eq_some.1 ht
  exact ⟨h.1, ⟨h.2.1.1, hb, h.2.1.2.2⟩, h.2.2⟩

theorem wf_loadFld {s t : State} {f : List Bytes} (h : Memory.wf s) (ht : s.loadFld f = some t) : Memory.wf t := by
  obtain ⟨hf, rfl⟩ := State.loadFld_eq_some.1 ht
  exact ⟨h.1, ⟨h.2.1.1, h.2.1.2.1, hf⟩, h.2.2⟩

/-- A field's bytes are written in place: the table keeps its size and every field its length. -/
theorem fldFits_set {c : Caps} {L : List Bytes} {i : Nat} {f f' : Bytes} (h : fldFits c L) (hi : L[i]? = some f)
    (hl : f'.length = f.length) : fldFits c (L.set i f') := by
  refine ⟨by simpa using h.1, fun g hg => ?_⟩
  rcases List.mem_or_eq_of_mem_set hg with hg | rfl
  · exact h.2 g hg
  · rw [fits, hl]; exact h.2 f (List.mem_of_getElem? hi)

/-- What an in-place write reaches: one operand buffer, the same length as before. -/
theorem pokeOperand_cases {s t : State} {sp : Space} {off : Nat} {src : Bytes} (h : s.pokeOperand sp off src = some t) :
    (∃ b, memWrite s.req.IN off src = some b ∧ t = { s with req := { s.req with IN := b } }) ∨
    (∃ b, memWrite s.req.PHN off src = some b ∧ t = { s with req := { s.req with PHN := b } }) ∨
    (∃ i f b, s.req.FLD[i]? = some f ∧ memWrite f off src = some b ∧
      t = { s with req := { s.req with FLD := s.req.FLD.set i b } }) := by
  cases sp with
  | IN => obtain ⟨b, hb, e⟩ := Option.map_eq_some_iff.1 h; exact .inl ⟨b, hb, e.symm⟩
  | PHN => obtain ⟨b, hb, e⟩ := Option.map_eq_some_iff.1 h; exact .inr (.inl ⟨b, hb, e.symm⟩)
  | FLD i =>
    simp only [State.pokeOperand] at h
    split at h
    · cases h
    · rename_i f hf
      obtain ⟨b, hb, e⟩ := Option.map_eq_some_iff.1 h
      exact .inr (.inr ⟨i, f, b, hf, hb, e.symm⟩)
  | OUT | OUTHEX | CKTXT | BCD | PHONE | PART _ | CELL _ | AD _ => cases h

theorem wf_pokeOperand {s t : State} {sp : Space} {off : Nat} {src : Bytes} (h : Memory.wf s)
    (ht : s.pokeOperand sp off src = some t) : Memory.wf t := by
  rcases pokeOperand_cases ht with ⟨b, hb, rfl⟩ | ⟨b, hb, rfl⟩ | ⟨i, f, b, hf, hb, rfl⟩
  · refine ⟨h.1, ⟨?_, h.2.1.2⟩, h.2.2⟩
    show fits b.length _
    rw [memWrite_length hb]; exact h.2.1.1
  · refine ⟨h.1, ⟨h.2.1.1, ?_, h.2.1.2.2⟩, h.2.2⟩
    show fits b.length _
    rw [memWrite_length hb]; exact h.2.1.2.1
  · exact ⟨h.1, ⟨h.2.1.1, h.2.1.2.1, fldFits_set h.2.1.2.2 hf (memWrite_length hb)⟩, h.2.2⟩

/-- A well-formed request's operands are operands that fit. -/
theorem wf_loadRequest {q : Request} {s t : State} (h : Memory.wf s) (ht : loadRequest q s = some t) : Memory.wf t := by
  obtain ⟨hq, rfl⟩ := loadRequest_eq_some.1 ht
  refine ⟨h.1, ?_, h.2.2⟩
  cases q with
  | sum8 _ | xor8 _ | adec _ | esc _ | unesc _ | bdec _ => exact ⟨of_decide_eq_true hq, h.2.1.2⟩
  | idnext | illegal _ => exact h.2.1
  | aenc fields => exact ⟨h.2.1.1, h.2.1.2.1, of_decide_eq_true hq⟩
  | benc cmd phone serial =>
    simp only [Request.wf, Bool.and_eq_true, decide_eq_true_eq] at hq
    exact ⟨hq.1.1, hq.1.2, h.2.1.2.2⟩

/-! ### Sizes of what the codecs answer -/

theorem packBcd_length (p : Bytes) : (packBcd p).length = p.length / 2 := by
  induction p using packBcd.induct with
  | case1 a b r ih => simp only [packBcd, List.length_cons, ih]; omega
  | case2 p h =>
    match p, h with
    | [], _ => rfl
    | [_], _ => simp [packBcd]
    | a :: b :: r, h => exact absurd rfl (h a b r)

theorem nibbles_length (b : Bytes) : (nibbles b).length = 2 * b.length := by
  induction b with
  | nil => rfl
  | cons x b ih => simp only [nibbles, List.length_cons, ih]; omega

/-- The phone check passes no text above 12 bytes (R162). -/
theorem length_le_of_phoneFault {p : Bytes} (h : phoneFault p = none) : p.length ≤ 12 := by
  unfold phoneFault at h
  split at h
  · cases h
  · split at h
    · cases h
    · omega

theorem padPhone_length {p : Bytes} (h : p.length ≤ 12) : (padPhone p).length = 12 := by
  simp [padPhone]; omega

theorem bsjBcd_length {u : Bytes} (h : 14 ≤ u.length) : (bsjBcd u).length = 6 := by
  simp [bsjBcd]; omega

/-- A sub-string between separators is no longer than the whole. -/
theorem length_le_of_mem_split {c : Byte} {s p : Bytes} (h : p ∈ split c s) : p.length ≤ s.length := by
  induction s generalizing p with
  | nil => simp_all [split]
  | cons b s ih =>
    rw [split] at h
    split at h
    · rcases List.mem_cons.1 h with rfl | h
      · simp
      · exact Nat.le_succ_of_le (ih h)
    · split at h
      · rename_i hs; exact absurd hs (split_ne_nil c s)
      · rename_i q qs hs
        rcases List.mem_cons.1 h with rfl | h
        · have := ih (p := q) (by simp [hs]); simpa using this
        · exact Nat.le_succ_of_le (ih (by simp [hs, h]))

end Sys2Proof.Machine
end

