-- ==== Sys2Proof/Laws/PerInstr.lean ====
section
/-! SUPPORT. Statements for every instruction, one lemma for each constructor of `Instr` (LAWS.json). -/

namespace Sys2Proof.Laws.TableWord

/-- The code of an operation is one byte with bits 7:4 zero, and the decoder reads the operation from it
(30_encoding.md R60, R62). -/
def Statement (i : Instr) : Prop :=
  i.wf ∧ (encodeBytes i).length = 1 ∧ (encode i).toNat < 16 ∧ decodeTableWord 8 (encode i).toNat = some i

theorem sum8 : Statement .sum8 := ⟨trivial, by decide⟩
theorem xor8 : Statement .xor8 := ⟨trivial, by decide⟩
theorem idnext : Statement .idnext := ⟨trivial, by decide⟩
theorem aenc : Statement .aenc := ⟨trivial, by decide⟩
theorem adec : Statement .adec := ⟨trivial, by decide⟩
theorem esc : Statement .esc := ⟨trivial, by decide⟩
theorem unesc : Statement .unesc := ⟨trivial, by decide⟩
theorem benc : Statement .benc := ⟨trivial, by decide⟩
theorem bdec : Statement .bdec := ⟨trivial, by decide⟩
theorem reserved0 : Statement .reserved0 := ⟨trivial, by decide⟩
theorem reservedA : Statement .reservedA := ⟨trivial, by decide⟩
theorem reservedB : Statement .reservedB := ⟨trivial, by decide⟩
theorem reservedC : Statement .reservedC := ⟨trivial, by decide⟩
theorem reservedD : Statement .reservedD := ⟨trivial, by decide⟩
theorem reservedE : Statement .reservedE := ⟨trivial, by decide⟩
theorem reservedF : Statement .reservedF := ⟨trivial, by decide⟩

end Sys2Proof.Laws.TableWord
end

