-- ==== Sys2Proof/Tests/Slice0.lean ====
section
/-! SUPPORT. Tests: the well-formedness smoke, decoding by words written out bit by bit, at most two vectors of
95_test_vectors.md for each operation, and for each statement with hypotheses a witness that meets them. -/

namespace Sys2Proof.Tests

open Sys2Proof.Config Sys2Proof.Machine Sys2Proof.Claims

/-! ### Small states -/

/-- The byte string of `n` bytes whose hexadecimal form is the numeral `v`, first byte leftmost. -/
def hexBytes : Nat → Nat → Bytes
  | 0, _ => []
  | n + 1, v => hexBytes n (v / 256) ++ [BitVec.ofNat 8 v]

/-- The reset state with an input. -/
def onIn (b : Bytes) : State := { State.reset with req := { Operands.cleared with IN := b } }

/-- The reset state with an identifier and fields. -/
def onFld (id : Byte) (fields : List Bytes) : State :=
  { State.reset with ID := id, req := { Operands.cleared with FLD := fields } }

/-- The reset state with the operands of BENC. -/
def onBenc (cmd phone : Bytes) (serial : Word) : State :=
  { State.reset with req := { Operands.cleared with IN := cmd, PHN := phone, SER := serial } }

/-- The same state in a block whose `OUT` holds `n` bytes. -/
def withMaxOut (n : Nat) (s : State) : State := { s with caps := { s.caps with maxOut := n } }

/-- The response an operation answers. -/
def respOf (i : Instr) (s : State) : Option Response := (nextOf (exec i s)).map (·.resp)

/-- An outcome is a next state with a decidable property. -/
theorem next_with {o : Host.Outcome State Fault Refusal} (P : State → Prop) [DecidablePred P]
    (h : (nextOf o).any (fun t => decide (P t)) = true) : ∃ t, o = .next t ∧ P t := by
  cases o with
  | next t => exact ⟨t, rfl, of_decide_eq_true h⟩
  | fault f => cases h
  | refused r => cases h

/-! ### Well-formedness (10_state.md R25, R39) -/

/-- Capacities small enough to overrun in a test, and legal (00_scope.md R6). -/
def small : Caps := ⟨14, 2, 19, 1, 21, 12⟩

theorem test_small_is_ok : small.ok := by decide
theorem test_wf_in_full : (Request.sum8 (List.replicate 14 0)).wf small = true := by decide
theorem test_ill_in_too_long : (Request.sum8 (List.replicate 15 0)).wf small = false := by decide
theorem test_ill_xor8 : (Request.xor8 (List.replicate 15 0)).wf small = false := by decide
theorem test_ill_adec : (Request.adec (List.replicate 15 0)).wf small = false := by decide
theorem test_ill_esc : (Request.esc (List.replicate 15 0)).wf small = false := by decide
theorem test_ill_unesc : (Request.unesc (List.replicate 15 0)).wf small = false := by decide
theorem test_ill_bdec : (Request.bdec (List.replicate 15 0)).wf small = false := by decide
theorem test_ill_too_many_fields : (Request.aenc (List.replicate 20 [])).wf small = false := by decide
theorem test_ill_field_too_long : (Request.aenc [[0, 0]]).wf small = false := by decide
theorem test_ill_cmd_too_long : (Request.benc (List.replicate 15 0) [] 0).wf small = false := by decide
theorem test_ill_phone_too_long : (Request.benc [] (List.replicate 13 0x30) 0).wf small = false := by decide
theorem test_ill_serial_above : (Request.benc [] [] (2 ^ 31)).wf small = false := by decide
theorem test_ill_serial_below : (Request.benc [] [] (-2 ^ 31 - 1)).wf small = false := by decide
theorem test_ill_illegal_names_an_operation : (Request.illegal 0x9).wf small = false := by decide

/-- The form of memory at reset. -/
theorem test_reset_memory_wf : Memory.wf State.reset := by decide

/-! ### Decoding: the codes of 30_encoding.md R60 and R61, bit by bit -/

theorem test_decode_sum8 : decodeTableWord 8 0b00000001 = some .sum8 := by decide
theorem test_decode_xor8 : decodeTableWord 8 0b00000010 = some .xor8 := by decide
theorem test_decode_idnext : decodeTableWord 8 0b00000011 = some .idnext := by decide
theorem test_decode_aenc : decodeTableWord 8 0b00000100 = some .aenc := by decide
theorem test_decode_adec : decodeTableWord 8 0b00000101 = some .adec := by decide
theorem test_decode_esc : decodeTableWord 8 0b00000110 = some .esc := by decide
theorem test_decode_unesc : decodeTableWord 8 0b00000111 = some .unesc := by decide
theorem test_decode_benc : decodeTableWord 8 0b00001000 = some .benc := by decide
theorem test_decode_bdec : decodeTableWord 8 0b00001001 = some .bdec := by decide
theorem test_decode_reserved0 : decodeTableWord 8 0b00000000 = some .reserved0 := by decide
theorem test_decode_reservedA : decodeTableWord 8 0b00001010 = some .reservedA := by decide
theorem test_decode_reservedB : decodeTableWord 8 0b00001011 = some .reservedB := by decide
theorem test_decode_reservedC : decodeTableWord 8 0b00001100 = some .reservedC := by decide
theorem test_decode_reservedD : decodeTableWord 8 0b00001101 = some .reservedD := by decide
theorem test_decode_reservedE : decodeTableWord 8 0b00001110 = some .reservedE := by decide
theorem test_decode_reservedF : decodeTableWord 8 0b00001111 = some .reservedF := by decide
theorem test_decode_refuses_a_fifth_bit : decode [0b00010001] = .error (.wide 0b00010001) := by decide
theorem test_decode_refuses_no_byte : decode [] = .error .empty := by decide

/-! ### Vectors (95_test_vectors.md section 2) -/

/-- K6: `$$A7,,*`. -/
theorem test_sum8_K6 : respOf .sum8 (onIn (hexBytes 7 0x242441372C2C2A)) =
    some { Response.cleared with RB := 0x42, CKC := 0x42, OUT := [0x34, 0x32] } := by decide
/-- K3: the sum wraps. -/
theorem test_sum8_K3 : respOf .sum8 (onIn [0xFF, 0x01]) = some { Response.cleared with OUT := [0x30, 0x30] } := by decide
/-- K7: `123456789`. -/
theorem test_xor8_K7 : respOf .xor8 (onIn (hexBytes 9 0x313233343536373839)) =
    some { Response.cleared with RB := 0x31, CKC := 0x31 } := by decide
/-- K9. -/
theorem test_xor8_K9 : respOf .xor8 (onIn [0x7E, 0x7D]) = some { Response.cleared with RB := 0x03, CKC := 0x03 } := by
  decide
/-- I2: the wrap. -/
theorem test_idnext_I2 : (nextOf (exec .idnext (onFld 0x7A []))).map (fun t => (t.ID, t.resp.RB)) = some (0x41, 0x7A) := by
  decide
/-- I4: the punctuation after `Z`. -/
theorem test_idnext_I4 : (nextOf (exec .idnext (onFld 0x5A []))).map (fun t => (t.ID, t.resp.RB)) = some (0x5B, 0x5A) := by
  decide
/-- E5: `$$z8,a,*DD`, the identifier wraps (log 13 on the vector's byte count). -/
theorem test_aenc_E5 : (nextOf (exec .aenc (onFld 0x7A [[0x61]]))).map (fun t => (t.ID, t.resp.OUT, t.resp.TOTAL)) =
    some (0x41, hexBytes 12 0x24247A382C612C2A44440D0A, 8) := by decide
/-- The 19 fields of vector A1. -/
def fieldsA1 : List Bytes := [hexBytes 15 0x383634333532303435353830373638,
  hexBytes 3 0x414141,
  hexBytes 2 0x3335,
  hexBytes 9 0x31392E363131313036,
  hexBytes 10 0x2D39392E303238333335,
  hexBytes 12 0x323430333135313233303435,
  hexBytes 1 0x41,
  hexBytes 1 0x39,
  hexBytes 2 0x3132,
  hexBytes 2 0x3938,
  hexBytes 2 0x3736,
  hexBytes 1 0x31,
  hexBytes 4 0x32323339,
  hexBytes 1 0x30,
  hexBytes 4 0x31333438,
  hexBytes 13 0x307C307C303030307C30303030,
  hexBytes 4 0x30303030,
  hexBytes 22 0x303030307C303030307C303030307C38307C30303030,
  hexBytes 8 0x3030303030303030]

/-- The frame of vector A1 (147 bytes). -/
def frameA1 : Bytes := hexBytes 74 0x2424413134312C3836343335323034353538303736382C4141412C33352C31392E3631313130362C2D39392E3032383333352C3234303331353132333034352C412C392C31322C39382C ++
  hexBytes 73 0x37362C312C323233392C302C313334382C307C307C303030307C303030302C303030302C303030307C303030307C303030307C38307C303030302C30303030303030302C2A43410D0A

/-- E7: the completed Example 1. -/
theorem test_aenc_E7 : respOf .aenc (onFld 0x41 fieldsA1) =
    some { Response.cleared with OUT := frameA1, RB := 0x41, CKC := 0xCA, TOTAL := 141 } := by decide +kernel
/-- A1. -/
theorem test_adec_A1 : (respOf .adec (onIn frameA1)).map (fun r => (r.FLAGS, r.CELL, r.TOTAL,
      [r.HDRID, r.YY, r.MO, r.DD, r.HH, r.MI, r.SS])) =
    some (0x0133, [[0x30], [0x30], [0x30, 0x30, 0x30, 0x30], [0x30, 0x30, 0x30, 0x30]], 141,
      [0x41, 24, 3, 15, 12, 30, 45]) := by decide +kernel
/-- A8: one byte of the input changed. -/
theorem test_adec_A8 : (respOf .adec (onIn (frameA1.set 7 0x39))).map (fun r => (r.FLAGS, r.CKC, r.CKTXT, r.PART[1]?)) =
    some (0x0135, 0xCB, [0x43, 0x41], some (hexBytes 15 0x393634333532303435353830373638)) := by decide +kernel
/-- X5: runs of both escaped bytes. -/
theorem test_esc_X5 : respOf .esc (onIn [0x7E, 0x7E, 0x7D, 0x7D]) =
    some { Response.cleared with OUT := [0x7D, 0x02, 0x7D, 0x02, 0x7D, 0x01, 0x7D, 0x01] } := by decide
/-- X6: a pair that looks escaped. -/
theorem test_esc_X6 : respOf .esc (onIn [0x7D, 0x02]) = some { Response.cleared with OUT := [0x7D, 0x01, 0x02] } := by
  decide
/-- X11: greedy, no second look. -/
theorem test_unesc_X11 : respOf .unesc (onIn [0x7D, 0x01, 0x02]) = some { Response.cleared with OUT := [0x7D, 0x02] } := by
  decide
/-- X16: the last byte has no follower. -/
theorem test_unesc_X16 : respOf .unesc (onIn [0x7D, 0x01, 0x7D]) =
    some { Response.cleared with STATUS := 0x06, INFO := 2 } := by decide

/-- `cmd21` of 95_test_vectors.md 2.6. -/
def cmd21 : Bytes := hexBytes 21 0x3C535042534A2A503A42534A4750532A433A33303E

/-- B5: the checksum byte is escaped. -/
theorem test_benc_B5 : (respOf .benc (onBenc cmd21 (hexBytes 12 0x303133383132333435363738) 143)).map (fun r => (r.OUT, r.CKC, r.LENW, r.BCD)) =
    some (hexBytes 38 0x7E83000016013812345678008F003C535042534A2A503A42534A4750532A433A33303E7D027E, 0x7E, 22,
      [0x01, 0x38, 0x12, 0x34, 0x56, 0x78]) := by decide
/-- B23: a blank within the first 12 bytes wins over the length. -/
theorem test_benc_B23 : respOf .benc (onBenc cmd21 (hexBytes 13 0x31323334353637383930312033) 1) =
    some { Response.cleared with STATUS := 0x04, INFO := 11 } := by decide

/-- The frame of vector B1. -/
def frameB1 : Bytes := hexBytes 37 0x7E830000160138123456780001003C535042534A2A503A42534A4750532A433A33303EF07E

/-- D2: one bit of the payload changed. -/
theorem test_bdec_D2 : respOf .bdec (onIn (frameB1.set 20 0x2B)) = some { Response.cleared with
      FLAGS := 0x00C5
      MSGID := 0x8300
      LENW := 22
      SERIAL := 1
      BCD := [0x01, 0x38, 0x12, 0x34, 0x56, 0x78]
      PHONE := hexBytes 12 0x303133383132333435363738
      OUT := hexBytes 21 0x3C535042534A2B503A42534A4750532A433A33303E
      CKR := 0xF0
      CKC := 0xF1 } := by decide
/-- D17: a bad pair at offset 10. -/
theorem test_bdec_D17 : respOf .bdec (onIn (frameB1.take 10 ++ [0x7D, 0x03] ++ frameB1.drop 10)) =
    some { Response.cleared with STATUS := 0x06, INFO := 10 } := by decide
/-- R61: each reserved code by its own meaning. -/
theorem test_reserved : [Instr.reserved0, .reservedA, .reservedB, .reservedC, .reservedD, .reservedE, .reservedF].map
      (fun i => respOf i State.reset) =
    [0x0, 0xA, 0xB, 0xC, 0xD, 0xE, 0xF].map (fun n => some { Response.cleared with STATUS := 0x0F, INFO := n }) := by decide

/-! ### Witnesses: concrete states and operands that meet the hypotheses of each statement, clause by clause -/

theorem witness_OperationCodesAsTabulated : 16 ≤ 16 := by decide

theorem witness_StepExecutesTheSelectedOperation :
    (onIn []).req.OP = encode .reserved0 ∧ decodeTableWord 8 0x9 = some .bdec := by decide

theorem witness_ChecksumsIgnoreOrderAndSeeOneByte :
    ([0x42, 0x41] : Bytes).Perm (onIn [0x41, 0x42]).req.IN ∧
    (onIn [0x41, 0x42]).req.IN = [] ++ 0x41 :: [0x42] ∧ (0x41 : Byte) ≠ 0xC1 ∧
    (∃ t, exec .sum8 (onIn [0x41, 0x42]) = .next t) ∧ (∃ t, exec .xor8 (onIn [0xC1, 0x42]) = .next t) :=
  ⟨List.Perm.swap _ _ _, rfl, by decide, ⟨_, rfl⟩, ⟨_, rfl⟩⟩

theorem witness_IdChangesByResetIdnextAndCompletedAencOnly :
    (∃ t, HostAction.apply .reset (onFld 0x50 []) = some t) ∧
    (∃ t, HostAction.apply .start ((onFld 0x7A []).writeOp 0x3) = some t ∧ t.ID = 0x41) ∧
    (∃ t, HostAction.apply .start ((onFld 0x41 []).writeOp 0x4) = some t ∧ t.resp.STATUS = 0) ∧
    (∃ t, HostAction.apply .start ((withMaxOut 10 (onFld 0x41 [])).writeOp 0x4) = some t ∧ t.resp.STATUS ≠ 0) ∧
    (∃ t, HostAction.apply (.writeOp 0x3) (onFld 0x41 []) = some t) ∧
    IdInRange ((onFld 0x7A []).writeOp 0x3) :=
  ⟨⟨_, rfl⟩, ⟨_, rfl, by decide⟩, ⟨_, rfl, by decide⟩, ⟨_, rfl, by decide⟩, ⟨_, rfl⟩, by decide⟩

theorem witness_IdentifiersOutsideTheCycleReturnToA :
    ((onFld 0x40 []).ID.toNat < 0x41 ∧ consumes .idnext = true ∧
      ∃ t, exec .idnext (onFld 0x40 []) = .next t ∧ t.resp.STATUS = 0) ∧
    (0x7A < (onFld 0x7B []).ID.toNat ∧ consumes .aenc = true ∧
      ∃ t, exec .aenc (onFld 0x7B []) = .next t ∧ t.resp.STATUS = 0) :=
  ⟨⟨by decide, rfl, next_with _ (by decide)⟩, by decide, rfl, next_with _ (by decide)⟩

theorem witness_RepeatedIdnextCyclesThroughFiftyEight :
    IdInRange ((onFld 0x7A []).writeOp 0x3) ∧ ((onFld 0x7A []).writeOp 0x3).req.OP = 0x3 := by decide

theorem witness_ScriptsIssueConsecutiveIdentifiers :
    IdInRange State.reset ∧
    ∃ rs t, runScript [.idnext, .sum8 [0x41], .aenc [], .illegal 0xA] State.reset = some (rs, t) ∧
      issuedIds [.idnext, .sum8 [0x41], .aenc [], .illegal 0xA] rs = [0x41, 0x42] :=
  ⟨by decide, _, _, rfl, by decide⟩

/-- The frame of no fields, vector E1: 11 bytes (log 13). -/
theorem frameE1 : IsAsciiFrame 0x41 [] [0x24, 0x24, 0x41, 0x37, 0x2C, 0x2C, 0x2A, 0x34, 0x32, 0x0D, 0x0A] 0x42 :=
  ⟨[0x37], ⟨[7], by decide⟩, by unfold IsByteSum; decide, by decide⟩

/-- A frame of just `MAXOUT` bytes, and one of one byte more. -/
theorem witness_AencBuildsTheFrameAndAdvances :
    (∃ frame ck, IsAsciiFrame (withMaxOut 11 (onFld 0x41 [])).ID [] frame ck ∧
      frame.length ≤ (withMaxOut 11 (onFld 0x41 [])).caps.maxOut) ∧
    (∃ frame ck, IsAsciiFrame (withMaxOut 10 (onFld 0x41 [])).ID [] frame ck ∧
      (withMaxOut 10 (onFld 0x41 [])).caps.maxOut < frame.length) ∧
    (bodyOf []).length + 4 < 2 ^ 32 :=
  ⟨⟨_, _, frameE1, by decide⟩, ⟨_, _, frameE1, by decide⟩, by decide⟩

theorem witness_AencFrameHasItsShape :
    ∃ t, exec .aenc (onFld 0x41 [[0x61]]) = .next t ∧ t.resp.STATUS = 0 ∧ t.resp.OUT.length < 2 ^ 32 :=
  next_with _ (by decide)

/-- A profile: event 35, battery 80, most values empty. -/
def profile : StandardProfile where
  imei := [0x38]
  cmd := []
  event := [0x33, 0x35]
  lat := []
  lon := []
  ts := []
  status := []
  sats := []
  gsm := []
  speed := []
  dir := []
  hdop := []
  alt := []
  mileage := []
  runtime := []
  mcc := [0x30]
  mnc := []
  lac := []
  cellId := []
  port := []
  ad1 := []
  ad2 := []
  ad3 := []
  battery := [0x38, 0x30]
  ad5 := []
  evinfo := [0x30]

theorem profile_wf : (aencStd profile).wf State.reset.caps = true := by decide +kernel

theorem profile_served : ∃ t, serve (aencStd profile) State.reset = some t ∧ t.resp.STATUS = 0 := by
  have h : ((serve (aencStd profile) State.reset).any (fun t => t.resp.STATUS == 0)) = true := by decide +kernel
  cases hs : serve (aencStd profile) State.reset with
  | none => rw [hs] at h; cases h
  | some t => rw [hs] at h; exact ⟨t, rfl, by simpa using h⟩

theorem witness_StandardProfileFramesHaveTheWireForm :
    (aencStd profile).wf State.reset.caps = true ∧
    ∃ t, serve (aencStd profile) State.reset = some t ∧ t.resp.STATUS = 0 := ⟨profile_wf, profile_served⟩

/-- `n` parts `1`. -/
def ones (n : Nat) : List Bytes := List.replicate n [0x31]

/-- ADEC's reading of a text that is built from its parts. -/
theorem reads {parts : List Bytes} {ck : Option Bytes} {crlf : Bool} (h1 : parts ≠ []) (h2 : ∀ p ∈ parts, 0x2C ∉ p)
    (h3 : NoLaterStar parts ck) (h4 : crlf = false → ¬ [0x0D, 0x0A] <:+ asciiText parts ck crlf) :
    AdecReads (onIn (asciiText parts ck crlf)) parts ck := ⟨crlf, rfl, h1, h2, h3, h4⟩

theorem accepts_ones16 : AdecAccepts (onIn (asciiText (ones 16) none false)) (ones 16) none :=
  ⟨reads (by decide) (by decide) (show ∀ p ∈ ones 16, 0x2A ∉ p by decide) (by decide), by decide, by decide⟩

theorem accepts_ones64 : AdecAccepts (onIn (asciiText (ones 64) (some [0x32]) true)) (ones 64) (some [0x32]) :=
  ⟨reads (by decide) (by decide +kernel) (show (0x2A : Byte) ∉ [0x32] by decide) (by decide), by decide, by decide⟩

/-- The least and the greatest number of parts that is accepted (`MAXPART = 64`). -/
theorem witness_AdecReportsThePartsRaw :
    AdecAccepts (onIn (asciiText (ones 16) none false)) (ones 16) none ∧
    AdecAccepts (onIn (asciiText (ones 64) (some [0x32]) true)) (ones 64) (some [0x32]) := ⟨accepts_ones16, accepts_ones64⟩

theorem witness_AdecRefusesTooFewOrTooManyParts :
    (AdecReads (onIn (asciiText (ones 15) none false)) (ones 15) none ∧ (ones 15).length < 16) ∧
    (AdecReads (onIn (asciiText (ones 65) none false)) (ones 65) none ∧ 16 ≤ (ones 65).length ∧
      (onIn []).caps.maxPart < (ones 65).length) :=
  ⟨⟨reads (by decide) (by decide) (show ∀ p ∈ ones 15, 0x2A ∉ p by decide) (by decide), by decide⟩,
    reads (by decide) (by decide +kernel) (show ∀ p ∈ ones 65, 0x2A ∉ p by decide +kernel) (by decide +kernel), by decide,
    by decide⟩

/-- No checksum; a valid one (the sum of sixteen `1`, fifteen `,` and `*` is `0xCE`); another text. -/
theorem witness_AdecJudgesTheChecksum :
    AdecAccepts (onIn (asciiText (ones 16) none false)) (ones 16) none ∧
    (AdecAccepts (onIn (asciiText (ones 16) (some [0x43, 0x45]) true)) (ones 16) (some [0x43, 0x45]) ∧
      IsByteSum 0xCE (List.intercalate [0x2C] (ones 16) ++ [0x2A])) ∧
    AdecAccepts (onIn (asciiText (ones 64) (some [0x32]) true)) (ones 64) (some [0x32]) :=
  ⟨accepts_ones16, ⟨⟨reads (by decide) (by decide) (show (0x2A : Byte) ∉ [0x43, 0x45] by decide) (by decide), by decide,
    by decide⟩, by unfold IsByteSum; decide⟩, accepts_ones64⟩

/-- Nineteen parts with the given cell and analog parts. -/
def grouped (cell ad : Bytes) : List Bytes := ones 16 ++ [cell, [0x31], ad]

/-- Parts 16 and 18 absent; present with one sub-part too few, just enough, and one more. -/
theorem witness_AdecGroupsAreAllOrNothing :
    (AdecAccepts (onIn (asciiText (ones 16) none false)) (ones 16) none ∧ (ones 16).length ≤ 16) ∧
    (∀ n ∈ [3, 4, 5], SubParts (List.replicate (n - 1) 0x7C) (List.replicate n []) ∧
      SubParts (List.replicate n 0x7C) (List.replicate (n + 1) []) ∧
      AdecAccepts (onIn (asciiText (grouped (List.replicate (n - 1) 0x7C) (List.replicate n 0x7C)) none false))
        (grouped (List.replicate (n - 1) 0x7C) (List.replicate n 0x7C)) none ∧
      (grouped (List.replicate (n - 1) 0x7C) (List.replicate n 0x7C))[16]? = some (List.replicate (n - 1) 0x7C) ∧
      (grouped (List.replicate (n - 1) 0x7C) (List.replicate n 0x7C))[18]? = some (List.replicate n 0x7C)) := by
  refine ⟨⟨accepts_ones16, by decide⟩, fun n hn => ?_⟩
  simp only [List.mem_cons, List.not_mem_nil, or_false] at hn
  rcases hn with rfl | rfl | rfl <;>
    exact ⟨⟨by decide, by decide, by decide⟩, ⟨by decide, by decide, by decide⟩,
      ⟨reads (by decide) (by decide) (show ∀ p ∈ grouped _ _, 0x2A ∉ p by decide) (by decide), by decide, by decide⟩,
      rfl, rfl⟩

/-- Sixteen parts with the given part 6. -/
def stamped (ts : Bytes) : List Bytes := ones 6 ++ [ts] ++ ones 9

/-- 29 February of a leap year, the last second of a day; and an empty part. -/
theorem witness_AdecParsesTheTimestamp :
    (AdecAccepts (onIn (asciiText (stamped ([2, 4, 0, 2, 2, 9, 2, 3, 5, 9, 5, 9].map ascii)) none false))
        (stamped ([2, 4, 0, 2, 2, 9, 2, 3, 5, 9, 5, 9].map ascii)) none ∧
      (stamped ([2, 4, 0, 2, 2, 9, 2, 3, 5, 9, 5, 9].map ascii))[6]? = some ([2, 4, 0, 2, 2, 9, 2, 3, 5, 9, 5, 9].map ascii) ∧
      GoodTimestamp ([2, 4, 0, 2, 2, 9, 2, 3, 5, 9, 5, 9].map ascii) [2, 4, 0, 2, 2, 9, 2, 3, 5, 9, 5, 9]) ∧
    (AdecAccepts (onIn (asciiText (stamped []) none false)) (stamped []) none ∧ (stamped [])[6]? = some [] ∧
      ¬ ∃ ds, GoodTimestamp [] ds) := by
  refine ⟨⟨⟨reads (by decide) (by decide) (show ∀ p ∈ stamped _, 0x2A ∉ p by decide) (by decide), by decide, by decide⟩,
    rfl, rfl, by decide, rfl, by unfold dateInRange; decide⟩,
    ⟨reads (by decide) (by decide) (show ∀ p ∈ stamped _, 0x2A ∉ p by decide) (by decide), by decide, by decide⟩, rfl, ?_⟩
  rintro ⟨ds, h, -, e, -⟩
  have := congrArg List.length e
  simp [h] at this

/-- Sixteen parts with the given header. -/
def headed (h : Bytes) : List Bytes := h :: ones 15

/-- Numbers just below and at `2^32`; and an empty header. -/
theorem witness_AdecReportsTheHeader :
    (∀ last ∈ [5, 6], GoodHeader ([0x24, 0x24, 0x41] ++ [4, 2, 9, 4, 9, 6, 7, 2, 9, last].map ascii) 0x41
        [4, 2, 9, 4, 9, 6, 7, 2, 9, last] ∧
      AdecAccepts (onIn (asciiText (headed ([0x24, 0x24, 0x41] ++ [4, 2, 9, 4, 9, 6, 7, 2, 9, last].map ascii)) none false))
        (headed ([0x24, 0x24, 0x41] ++ [4, 2, 9, 4, 9, 6, 7, 2, 9, last].map ascii)) none) ∧
    [4, 2, 9, 4, 9, 6, 7, 2, 9, 5].foldl (fun v d => 10 * v + d) 0 < 2 ^ 32 ∧
    2 ^ 32 ≤ [4, 2, 9, 4, 9, 6, 7, 2, 9, 6].foldl (fun v d => 10 * v + d) 0 ∧
    AdecAccepts (onIn (asciiText (headed []) none false)) (headed []) none ∧ (headed [])[0]? = some [] ∧
    ¬ ∃ id ds, GoodHeader [] id ds := by
  refine ⟨fun last hl => ?_, by decide, by decide,
    ⟨reads (by decide) (by decide) (show ∀ p ∈ headed _, 0x2A ∉ p by decide) (by decide), by decide, by decide⟩, rfl, ?_⟩
  · simp only [List.mem_cons, List.not_mem_nil, or_false] at hl
    rcases hl with rfl | rfl <;>
      exact ⟨⟨by decide, by decide, rfl⟩,
        reads (by decide) (by decide) (show ∀ p ∈ headed _, 0x2A ∉ p by decide) (by decide), by decide, by decide⟩
  · rintro ⟨id, ds, -, -, e⟩
    cases e

theorem witness_AdecNamesTheParts :
    ∃ t, exec .adec (onIn (asciiText (ones 16) none false)) = .next t ∧ t.resp.STATUS = 0 := next_with _ (by decide)

theorem witness_AdecIgnoresOneFinalCrlf :
    (onIn (asciiText (ones 16) none true)).req.IN = asciiText (ones 16) none false ++ [0x0D, 0x0A] ∧
    ¬ [0x0D, 0x0A] <:+ asciiText (ones 16) none false ∧
    (∃ t, exec .adec (onIn (asciiText (ones 16) none true)) = .next t ∧ t.resp.STATUS = 0) ∧
    ∃ u, exec .adec (onIn (asciiText (ones 16) none false)) = .next u ∧ u.resp.STATUS = 0 :=
  ⟨by decide, by decide, next_with _ (by decide), next_with _ (by decide)⟩

theorem witness_AsciiFramesDecodeToTheirFields :
    IdInRange (onFld 0x7A (ones 15)) ∧ 15 ≤ (onFld 0x7A (ones 15)).req.FLD.length ∧
    (onFld 0x7A (ones 15)).req.FLD.length + 2 ≤ (onFld 0x7A (ones 15)).caps.maxPart ∧
    (∀ f ∈ (onFld 0x7A (ones 15)).req.FLD, 0x2C ∉ f ∧ 0x2A ∉ f ∧ 0x0D ∉ f ∧ 0x0A ∉ f) ∧
    ∃ t, exec .aenc (onFld 0x7A (ones 15)) = .next t ∧ t.resp.STATUS = 0 ∧ t.resp.OUT.length < 2 ^ 32 :=
  ⟨by decide, by decide, by decide, by decide, next_with _ (by decide)⟩

theorem witness_StandardProfileFramesDecodeToTheProfile :
    IdInRange State.reset ∧ 21 ≤ State.reset.caps.maxPart ∧
    (∀ v ∈ profile.values, ∀ b ∈ v, b ≠ 0x2C ∧ b ≠ 0x2A ∧ b ≠ 0x0D ∧ b ≠ 0x0A ∧ b ≠ 0x7C) ∧
    ∃ t, serve (aencStd profile) State.reset = some t ∧ t.resp.STATUS = 0 :=
  ⟨by decide, by decide, by decide +kernel, profile_served⟩

theorem witness_ShortAsciiFramesAreTooFew :
    ∀ n ∈ [0, 13, 14], IdInRange (onFld 0x41 (ones n)) ∧
      (∀ f ∈ (onFld 0x41 (ones n)).req.FLD, 0x2C ∉ f ∧ 0x2A ∉ f ∧ 0x0D ∉ f ∧ 0x0A ∉ f) ∧
      16 ≤ (onFld 0x41 (ones n)).caps.maxPart ∧ (onFld 0x41 (ones n)).req.FLD.length = n ∧
      ∃ t, exec .aenc (onFld 0x41 (ones n)) = .next t ∧ t.resp.STATUS = 0 := by
  intro n hn
  simp only [List.mem_cons, List.not_mem_nil, or_false] at hn
  rcases hn with rfl | rfl | rfl <;> exact ⟨by decide, by decide, by decide, by decide, next_with _ (by decide)⟩

/-- Sixteen parts `1` with their checksum text `CE`, then the first byte replaced by `2`. -/
theorem witness_AdecDetectsOneCorruptedByte :
    (onIn (asciiText (ones 16) (some [0x43, 0x45]) true)).req.IN =
      [] ++ 0x31 :: (List.intercalate [0x2C] ([] :: ones 15)) ++ 0x2A :: [0x43, 0x45] ++ [0x0D, 0x0A] ∧
    (0x2A : Byte) ∉ [0x43, 0x45] ∧ (0x31 : Byte) ≠ 0x32 ∧ (0x31 : Byte) ≠ 0x2C ∧ (0x32 : Byte) ≠ 0x2C ∧
    (∃ t, exec .adec (onIn (asciiText (ones 16) (some [0x43, 0x45]) true)) = .next t ∧
      t.resp.FLAGS.getLsbD 1 = true) ∧
    ∃ u, exec .adec (onIn ([] ++ 0x32 :: (List.intercalate [0x2C] ([] :: ones 15)) ++ 0x2A :: [0x43, 0x45] ++ [0x0D, 0x0A])) =
      .next u ∧ u.resp.STATUS = 0 :=
  ⟨by decide, by decide, by decide, by decide, by decide, next_with _ (by decide), next_with _ (by decide)⟩

/-- A result of just `MAXOUT` bytes. -/
theorem witness_EscAnswersTheEscapedInput :
    (escaped (withMaxOut 2 (onIn [0x7E])).req.IN).length ≤ (withMaxOut 2 (onIn [0x7E])).caps.maxOut := by decide

theorem witness_UnescAnswersOrPointsAtTheBadByte :
    (Unescapes (withMaxOut 2 (onIn [0x7D, 0x01, 0x02])).req.IN [0x7D, 0x02] ∧
      ([0x7D, 0x02] : Bytes).length ≤ (withMaxOut 2 (onIn [0x7D, 0x01, 0x02])).caps.maxOut) ∧
    StopsAt (onIn [0x7D, 0x01, 0x7D]).req.IN 2 ∧ StopsAt (onIn [0x7D]).req.IN 0 :=
  ⟨⟨.control _ _ (.plain _ _ _ (by decide) .nil), by decide⟩,
    ⟨[0x7D, 0x01], [], [0x7D], rfl, rfl, .control _ _ .nil, by decide, by decide⟩,
    ⟨[], [], [], rfl, rfl, .nil, by decide, by decide⟩⟩

theorem witness_EscOutputIsFreeOfFlagBytes :
    ∃ t, exec .esc (onIn [0x7E, 0x7D]) = .next t ∧ t.resp.STATUS = 0 ∧ t.resp.OUT = [] ++ 0x7D :: [0x02, 0x7D, 0x01] :=
  next_with _ (by decide)

theorem witness_EscapeAndUnescapeRoundTrip :
    (∃ t, exec .esc (onIn [0x7E, 0x7D]) = .next t ∧ t.resp.STATUS = 0 ∧
      (onIn [0x7E, 0x7D]).req.IN.length ≤ (onIn [0x7E, 0x7D]).caps.maxOut) ∧
    ∃ t, exec .unesc (onIn [0x7D, 0x01, 0x02]) = .next t ∧ t.resp.STATUS = 0 ∧
      0x7E ∉ (onIn [0x7D, 0x01, 0x02]).req.IN ∧
      (onIn [0x7D, 0x01, 0x02]).req.IN.length ≤ (onIn [0x7D, 0x01, 0x02]).caps.maxOut :=
  ⟨next_with _ (by decide), next_with _ (by decide)⟩

/-- Vector B7's operands: empty command, empty phone, serial 0. -/
theorem accepts_B7 (n : Nat) : BencAccepts (withMaxOut n (onBenc [] [] 0)) [] 0 :=
  ⟨⟨rfl, by decide, by decide⟩, ⟨rfl, by decide⟩, by show 0 + 1 ≤ 65535; decide⟩

/-- The largest serial with a phone of 12 digits (vector B4). -/
theorem accepts_largest : BencAccepts (onBenc [0x41] ([1, 2, 3, 4, 5, 6, 7, 8, 9, 0, 1, 2].map ascii) 65535)
    [1, 2, 3, 4, 5, 6, 7, 8, 9, 0, 1, 2] 65535 :=
  ⟨⟨rfl, by decide, by decide⟩, ⟨rfl, by decide⟩, by decide⟩

/-- The 16-byte frame of vector B7 in an `OUT` of 16 bytes and of 15. -/
theorem witness_BencBuildsTheFlaggedFrame :
    BencAccepts (withMaxOut 16 (onBenc [] [] 0)) [] 0 ∧ IsByteXor 0x82 (bsjUnescaped [] [] 0) ∧
    (bsjWire [] [] 0 0x82).length ≤ (withMaxOut 16 (onBenc [] [] 0)).caps.maxOut ∧
    BencAccepts (withMaxOut 15 (onBenc [] [] 0)) [] 0 ∧
    (withMaxOut 15 (onBenc [] [] 0)).caps.maxOut < (bsjWire [] [] 0 0x82).length ∧
    BencAccepts (onBenc [0x41] ([1, 2, 3, 4, 5, 6, 7, 8, 9, 0, 1, 2].map ascii) 65535)
      [1, 2, 3, 4, 5, 6, 7, 8, 9, 0, 1, 2] 65535 :=
  ⟨accepts_B7 16, by unfold IsByteXor; decide, by decide, accepts_B7 15, by decide, accepts_largest⟩

/-- Vectors B23 (a blank at offset 11) and B20 (13 digits). -/
theorem witness_BencRefusesABadPhoneFirst :
    ((∀ x ∈ [1, 2, 3, 4, 5, 6, 7, 8, 9, 0, 1], x < 10) ∧
      (onBenc [] ([1, 2, 3, 4, 5, 6, 7, 8, 9, 0, 1].map ascii ++ [0x20, 0x33]) 1).req.PHN =
        [1, 2, 3, 4, 5, 6, 7, 8, 9, 0, 1].map ascii ++ 0x20 :: [0x33] ∧
      [1, 2, 3, 4, 5, 6, 7, 8, 9, 0, 1].length < 12 ∧ (0x20 : Byte).toNat < 0x30) ∧
    ((∀ x ∈ [1, 2, 3, 4, 5, 6, 7, 8, 9, 0, 1, 2], x < 10) ∧
      (onBenc [] ([1, 2, 3, 4, 5, 6, 7, 8, 9, 0, 1, 2].map ascii ++ [0x33]) 1).req.PHN =
        [1, 2, 3, 4, 5, 6, 7, 8, 9, 0, 1, 2].map ascii ++ [0x33] ∧
      [1, 2, 3, 4, 5, 6, 7, 8, 9, 0, 1, 2].length = 12 ∧ ([0x33] : Bytes) ≠ []) := by decide

/-- Vectors B24 and B25: 65536 and -1. -/
theorem witness_BencRefusesABadSerial :
    PhoneDigits (onBenc [] [] 65536).req.PHN [] ∧ 65535 < (onBenc [] [] 65536).req.SER.toInt ∧
    (onBenc [] [] 0xFFFFFFFF).req.SER.toInt < 0 :=
  ⟨⟨rfl, by decide, by decide⟩, by decide, by decide⟩

/-- No phone and serial 0 beside any command. -/
theorem no_phone (cmd : Bytes) : PhoneDigits (onBenc cmd [] 0).req.PHN [] ∧ SerialIs (onBenc cmd [] 0) 0 :=
  ⟨⟨rfl, by decide, by decide⟩, ⟨rfl, by decide⟩⟩

theorem long_body {cmd : Bytes} (h : cmd.length = 65535) : 65535 < (onBenc cmd [] 0).req.IN.length + 1 := by
  show 65535 < cmd.length + 1
  omega

/-- A command of 65535 bytes: a body of 65536. -/
theorem witness_BencRefusesALongBody : ∃ cmd : Bytes,
    PhoneDigits (onBenc cmd [] 0).req.PHN [] ∧ SerialIs (onBenc cmd [] 0) 0 ∧
    65535 < (onBenc cmd [] 0).req.IN.length + 1 :=
  ⟨List.replicate 65535 0, (no_phone _).1, (no_phone _).2, long_body List.length_replicate⟩

theorem witness_BencFrameHasItsShape :
    ∃ t, exec .benc (onBenc [0x7E] [0x39] 32381) = .next t ∧ t.resp.STATUS = 0 := next_with _ (by decide)

/-- The inner bytes of vector B7. -/
def innerB7 : Bytes := [0x83, 0, 0, 1, 0, 0, 0, 0, 0, 0, 0, 0, 0, 0x82]

/-- Vector B7's frame by position. -/
def layoutB7 : Layout := ⟨0x83, 0, 0, 1, [0, 0, 0, 0, 0, 0], 0, 0, 0, [], 0x82⟩

theorem framed_B7 (n : Nat) : Framed (withMaxOut n (onIn ([0x7E] ++ innerB7 ++ [0x7E]))).req.IN innerB7 := ⟨rfl, by decide⟩

/-- Bytes without `0x7D` stand for themselves. -/
theorem unescapes_plain {b : Bytes} (h : 0x7D ∉ b) : Unescapes b b := by
  induction b with
  | nil => exact .nil
  | cons x b ih =>
    simp only [List.mem_cons, not_or] at h
    exact .plain _ _ _ (fun e => h.1 e.symm) (ih h.2)

theorem witness_BdecReportsTheFieldsByPosition :
    Framed (withMaxOut 0 (onIn ([0x7E] ++ innerB7 ++ [0x7E]))).req.IN innerB7 ∧ Unescapes innerB7 layoutB7.bytes ∧
    layoutB7.bcd.length = 6 ∧ layoutB7.payload.length ≤ (withMaxOut 0 (onIn ([0x7E] ++ innerB7 ++ [0x7E]))).caps.maxOut :=
  ⟨framed_B7 0, unescapes_plain (by decide), rfl, by decide⟩

/-- Vector D11 (one flag byte), the two ends missing one each, and an interior flag at the first place. -/
theorem witness_BdecRefusesMissingOrInteriorFlags :
    (onIn [0x7E]).req.IN.length < 2 ∧ (onIn [0x00, 0x7E]).req.IN.head? ≠ some 0x7E ∧
    (onIn [0x7E, 0x00]).req.IN.getLast? ≠ some 0x7E ∧
    ((onIn [0x7E, 0x7E, 0x7E]).req.IN = [0x7E] ++ [] ++ [0x7E] ++ [] ++ [0x7E] ∧ (0x7E : Byte) ∉ ([] : Bytes)) := by decide

/-- Vector D14 (an empty interior), thirteen bytes (D15), and a lone `0x7D` (D18). -/
theorem witness_BdecRefusesBadEscapesAndTruncation :
    (Framed (onIn [0x7E, 0x7E]).req.IN [] ∧ Unescapes [] [] ∧ ([] : Bytes).length < 14) ∧
    (Framed (onIn ([0x7E] ++ innerB7.take 13 ++ [0x7E])).req.IN (innerB7.take 13) ∧
      Unescapes (innerB7.take 13) (innerB7.take 13) ∧ (innerB7.take 13).length < 14) ∧
    (Framed (onIn [0x7E, 0x7D, 0x7E]).req.IN [0x7D] ∧ StopsAt [0x7D] 0) :=
  ⟨⟨⟨rfl, by decide⟩, .nil, by decide⟩, ⟨⟨rfl, by decide⟩, unescapes_plain (by decide), by decide⟩,
    ⟨rfl, by decide⟩, ⟨[], [], [], rfl, rfl, .nil, by decide, by decide⟩⟩

/-- Each result one byte longer than `OUT`. -/
theorem witness_ResultsThatDoNotFitAreCapacityExceeded :
    (withMaxOut 1 (onIn [0x7E])).caps.maxOut < (escaped (withMaxOut 1 (onIn [0x7E])).req.IN).length ∧
    (Unescapes (withMaxOut 1 (onIn [0x41, 0x42])).req.IN [0x41, 0x42] ∧
      (withMaxOut 1 (onIn [0x41, 0x42])).caps.maxOut < ([0x41, 0x42] : Bytes).length) ∧
    (Framed (withMaxOut 0 (onIn ([0x7E] ++ (innerB7 ++ [0]) ++ [0x7E]))).req.IN (innerB7 ++ [0]) ∧
      Unescapes (innerB7 ++ [0]) (innerB7 ++ [0]) ∧ 14 ≤ (innerB7 ++ [0]).length ∧
      (withMaxOut 0 (onIn ([0x7E] ++ (innerB7 ++ [0]) ++ [0x7E]))).caps.maxOut < (innerB7 ++ [0]).length - 14) :=
  ⟨by decide, ⟨unescapes_plain (b := [0x41, 0x42]) (by decide), by decide⟩, ⟨rfl, by decide⟩,
    unescapes_plain (by decide), by decide, by decide⟩

theorem witness_BsjFramesDecodeToTheirOperands :
    BencAccepts (onBenc [0x41] ([1, 2, 3, 4, 5, 6, 7, 8, 9, 0, 1, 2].map ascii) 65535)
      [1, 2, 3, 4, 5, 6, 7, 8, 9, 0, 1, 2] 65535 ∧
    ∃ t, exec .benc (onBenc [0x41] ([1, 2, 3, 4, 5, 6, 7, 8, 9, 0, 1, 2].map ascii) 65535) = .next t ∧
      t.resp.STATUS = 0 := ⟨accepts_largest, next_with _ (by decide)⟩

/-- Vector B7's frame with its first byte in view. -/
theorem witness_BdecDetectsOneCorruptedByte :
    (onIn ([0x7E] ++ innerB7 ++ [0x7E])).req.IN = [0x7E] ++ escaped ([] ++ 0x83 :: innerB7.tail) ++ [0x7E] ∧
    (0x83 : Byte) ≠ 0x7E ∧
    ∃ t, exec .bdec (onIn ([0x7E] ++ innerB7 ++ [0x7E])) = .next t ∧ t.resp.STATUS = 0 ∧
      t.resp.FLAGS.getLsbD 1 = true := ⟨by decide, by decide, next_with _ (by decide)⟩

theorem witness_ReservedCodesEndWithIllegalOp :
    (State.reset.writeOp 0x0).req.OP.toNat = 0 ∧ 0xA ≤ (State.reset.writeOp 0xA).req.OP.toNat ∧
    0xA ≤ (State.reset.writeOp 0xF).req.OP.toNat := by decide

theorem witness_EveryOperationEndsAndTouchesOnlyItsOwn : consumes .idnext = true ∧ consumes .aenc = true := by decide

/-- Two states that differ in everything the operation does not read. -/
theorem witness_ResponsesDependOnlyOnNamedOperands :
    agreeOnOperands .benc (onBenc [0x41] [0x31] 7) { onBenc [0x41] [0x31] 7 with
      ID := 0x7A, req := { (onBenc [0x41] [0x31] 7).req with FLD := [[0x41]] } } ∧
    agreeOnOperands .aenc (onFld 0x42 [[0x41]]) { onFld 0x42 [[0x41]] with
      req := { (onFld 0x42 [[0x41]]).req with IN := [0x41], SER := 7 } } ∧
    (∃ t, exec .benc (onBenc [0x41] [0x31] 7) = .next t ∧ t.resp.STATUS = 0) ∧
    ∃ t, exec .aenc (onFld 0x42 [[0x41]]) = .next t ∧ t.resp.STATUS = 0 :=
  ⟨⟨rfl, rfl, rfl, rfl⟩, ⟨rfl, rfl, rfl⟩, next_with _ (by decide), next_with _ (by decide)⟩

theorem witness_OperationsOtherThanIssuingAreIdempotent :
    consumes .unesc = false ∧ ∃ t, exec .unesc (onIn [0x7D, 0x02]) = .next t ∧ t.resp.STATUS = 0 :=
  ⟨rfl, next_with _ (by decide)⟩

theorem witness_ResponsesAreAFunctionOfRequestAndId :
    State.reset.caps = (onIn [0x41]).caps ∧ requestConsumes .idnext = true ∧ State.reset.ID = (onIn [0x41]).ID ∧
    (∃ t, serve .idnext State.reset = some t) ∧
    (requestConsumes (.sum8 [0x41]) = false ∧ ∃ t, serve (.sum8 [0x41]) State.reset = some t) :=
  ⟨rfl, rfl, rfl, ⟨_, rfl⟩, rfl, ⟨_, rfl⟩⟩

/-- An answer without and one with a fatal result. -/
theorem witness_ResultCodesAndFlagsByOperation :
    (∃ t, exec .adec (onIn (asciiText (ones 16) none false)) = .next t ∧ t.resp.STATUS = 0) ∧
    ∃ t, exec .adec (onIn []) = .next t ∧ t.resp.STATUS ≠ 0 := ⟨next_with _ (by decide), next_with _ (by decide)⟩

theorem witness_ChecksumVerdictHasThreeStates :
    ∃ t, exec .bdec (onIn ([0x7E] ++ innerB7 ++ [0x7E])) = .next t ∧ t.resp.STATUS = 0 ∧
      t.resp.FLAGS.getLsbD 1 = true := next_with _ (by decide)

theorem witness_ScalarResultsAreZeroUnlessWritten :
    ∃ t, exec .esc (onIn [0x41]) = .next t ∧ t.resp.STATUS = 0 := next_with _ (by decide)

theorem witness_BuffersChangeOnlyWhereAnOperationFillsThem :
    operandSpace (.FLD 3) = true ∧ operandSpace (.PART 0) = false ∧ fills .sum8 (.PART 0) = false ∧
    ∃ t, exec .sum8 (onIn [0x41]) = .next t ∧ t.resp.STATUS = 0 := ⟨rfl, rfl, rfl, next_with _ (by decide)⟩

/-- Both ends of the range. -/
theorem witness_StepKeepsIdInRange :
    IdInRange ((onFld 0x41 []).writeOp 0x3) ∧ IdInRange ((onFld 0x7A []).writeOp 0x3) ∧
    ∃ t, step ((onFld 0x7A []).writeOp 0x3) = .next t ∧ t.resp.STATUS = 0 :=
  ⟨by decide, by decide, next_with _ (by decide)⟩

theorem witness_StepKeepsMemoryForm :
    Memory.wf ((onIn [0x7E]).writeOp 0x6) ∧ ∃ t, step ((onIn [0x7E]).writeOp 0x6) = .next t ∧ t.resp.STATUS = 0 :=
  ⟨by decide, next_with _ (by decide)⟩

theorem witness_ResetMeetsTheInvariant : Caps.suggested.ok ∧ small.ok := by decide

theorem witness_ResetLeavesEverythingEmptyAndIdA : ∃ s u : State, u = s.afterReset ∧ s.ID = 0x5A ∧ s.req.IN = [0x41] :=
  ⟨{ onIn [0x41] with ID := 0x5A }, _, rfl, rfl, rfl⟩

theorem witness_ReachableStatesMeetTheInvariant : ∃ s, Reachable s ∧ s.ID = 0x42 :=
  ⟨_, .ofAction _ _ .start (.ofAction _ _ (.writeOp 0x3) (.ofReset small test_small_is_ok) rfl) rfl, rfl⟩

theorem witness_HostWritesReachOnlyOperands :
    (∃ t, HostAction.apply (.loadFld [[0x41]]) State.reset = some t) ∧
    (∃ t, HostAction.apply (.pokeOperand .IN 1 [0x42]) (onIn [0x41, 0x41]) = some t) ∧
    Memory.operandsWf (onIn [0x41, 0x41]).caps (onIn [0x41, 0x41]).req :=
  ⟨⟨_, rfl⟩, ⟨_, rfl⟩, by decide⟩

theorem witness_InPlaceWritesSetExactlyTheirBytes :
    (∃ t, (onIn [0x41, 0x41, 0x41]).pokeOperand .IN 1 [0x42] = some t) ∧ ([0x42] : Bytes)[0]? = some 0x42 ∧
    (∃ t, (onFld 0x41 [[0x41]]).pokeOperand (.FLD 0) 0 [0x42] = some t) := ⟨⟨_, rfl⟩, rfl, ⟨_, rfl⟩⟩

theorem witness_WellFormedScriptsRunToTheirEnd :
    ∀ q ∈ [Request.idnext, .benc [0x41] [0x31] (-1), .illegal 0xF], q.wf State.reset.caps = true := by decide

theorem witness_LengthRegistersCountTheirBuffers :
    ((onIn [0x41]).req.IN.length < 2 ^ 32 ∧ (onIn [0x41]).req.PHN.length < 2 ^ 32 ∧ (onIn [0x41]).req.FLD.length < 2 ^ 32 ∧
      (onIn [0x41]).resp.OUT.length < 2 ^ 32 ∧ (onIn [0x41]).resp.OUTHEX.length < 2 ^ 32 ∧
      (onIn [0x41]).resp.CKTXT.length < 2 ^ 32 ∧ (onIn [0x41]).resp.PART.length < 2 ^ 32) ∧
    ((onFld 0x41 [[], [0x41]]).req.FLD[1]? = some [0x41] ∧ ([0x41] : Bytes).length < 2 ^ 32) ∧
    (∃ t, exec .adec (onIn (asciiText (grouped [0x7C, 0x7C, 0x7C] [0x7C, 0x7C, 0x7C, 0x7C]) none false)) = .next t ∧
      t.resp.PART[0]? = some [0x31] ∧ t.resp.CELL[3]? = some [] ∧ t.resp.AD[4]? = some []) ∧
    ∃ t, exec .benc (onBenc [] [] 0) = .next t ∧ 2 * t.resp.OUT.length < 2 ^ 32 :=
  ⟨by decide, by decide, next_with _ (by decide), next_with _ (by decide)⟩

end Sys2Proof.Tests
end

/-! SUPPORT. 10_state.md R24: what an operation answers is a function of the operands its rule names. Two observations of an
outcome carry the proof, the response it writes and the identifier it leaves; for each operation that reads an operand one
lemma says what the response is determined by. -/

namespace Sys2Proof.Machine

open Sys2Proof.Claims

/-! ### What is observed of an outcome -/

/-- The response of the next state, where there is one. -/
def responseOf (o : Host.Outcome State Fault Refusal) : Option Response := (nextOf o).map (·.resp)

/-- The identifier register of the next state, where there is one. -/
def idAfter (o : Host.Outcome State Fault Refusal) : Option Byte := (nextOf o).map (·.ID)

@[simp] theorem responseOf_next (t : State) : responseOf (.next t) = some t.resp := rfl
@[simp] theorem responseOf_answer (r : Response) (s : State) : responseOf (answer r s) = some r := rfl
@[simp] theorem responseOf_answerAdvancing (r : Response) (s : State) : responseOf (answerAdvancing r s) = some r := rfl
@[simp] theorem responseOf_raiseFatal (e : Fatal) (s : State) : responseOf (raiseFatal e s) = some (fatalResponse e) := rfl

/-- The response is observed under the test that selects the end. -/
@[simp] theorem responseOf_ite (p : Prop) [Decidable p] (o o' : Host.Outcome State Fault Refusal) :
    responseOf (if p then o else o') = if p then responseOf o else responseOf o' := apply_ite responseOf p o o'

@[simp] theorem idAfter_next (t : State) : idAfter (.next t) = some t.ID := rfl
@[simp] theorem idAfter_answerAdvancing (r : Response) (s : State) : idAfter (answerAdvancing r s) = some (adv s.ID) := rfl
@[simp] theorem idAfter_raiseFatal (e : Fatal) (s : State) : idAfter (raiseFatal e s) = some s.ID := rfl

/-- The identifier is observed under the test that selects the end. -/
@[simp] theorem idAfter_ite (p : Prop) [Decidable p] (o o' : Host.Outcome State Fault Refusal) :
    idAfter (if p then o else o') = if p then idAfter o else idAfter o' := apply_ite idAfter p o o'

/-! ### The operations that read `IN` only

The shape of each proof: rewriting with the agreements makes the two states take the same branch, and the response written
in a branch is the same on both sides, whatever state it is written to. -/

section ReadsIn

variable {s s' : State} (hin : inBytes s = inBytes s')
include hin

theorem responseOf_execSum8_congr : responseOf (execSum8 s) = responseOf (execSum8 s') := by
  simp only [execSum8, hin, responseOf_answer]

theorem responseOf_execXor8_congr : responseOf (execXor8 s) = responseOf (execXor8 s') := by
  simp only [execXor8, hin, responseOf_answer]

variable (hc : s.caps = s'.caps)
include hc

theorem responseOf_execAdec_congr : responseOf (execAdec s) = responseOf (execAdec s') := by
  simp only [execAdec, hin, hc, responseOf_ite, responseOf_raiseFatal, responseOf_answer]

theorem responseOf_execEsc_congr : responseOf (execEsc s) = responseOf (execEsc s') := by
  simp only [execEsc, hin, hc, responseOf_ite, responseOf_raiseFatal, responseOf_answer]

theorem responseOf_execUnesc_congr : responseOf (execUnesc s) = responseOf (execUnesc s') := by
  simp only [execUnesc, hin, hc]
  cases unescape (inBytes s') with
  | error i => simp only [responseOf_raiseFatal]
  | ok o => simp only [responseOf_ite, responseOf_raiseFatal, responseOf_answer]

theorem responseOf_execBdec_congr : responseOf (execBdec s) = responseOf (execBdec s') := by
  simp only [execBdec, hin, hc, responseOf_ite, responseOf_raiseFatal]
  cases (bsjInner (inBytes s')).findIdx? (fun b => b == 0x7E) with
  | some j => simp only [responseOf_raiseFatal]
  | none =>
    cases unescape (bsjInner (inBytes s')) with
    | error i => simp only [responseOf_raiseFatal]
    | ok u => simp only [responseOf_ite, responseOf_raiseFatal, responseOf_answer]

end ReadsIn

/-! ### The operations that read other operands -/

/-- BENC reads the command, the phone number and the serial. -/
theorem responseOf_execBenc_congr {s s' : State} (hc : s.caps = s'.caps) (hin : inBytes s = inBytes s')
    (hphn : phoneText s = phoneText s') (hser : s.req.SER = s'.req.SER) :
    responseOf (execBenc s) = responseOf (execBenc s') := by
  have hserial : serialInt s = serialInt s' := congrArg BitVec.toInt hser
  simp only [execBenc, hin, hphn, hserial, hser, hc]
  cases phoneFault (phoneText s') with
  | some k => simp only [responseOf_raiseFatal]
  | none => simp only [responseOf_ite, responseOf_raiseFatal, responseOf_answer]

/-- AENC reads `ID` and the field table. -/
theorem responseOf_execAenc_congr {s s' : State} (hc : s.caps = s'.caps) (hid : s.ID = s'.ID)
    (hfld : fieldList s = fieldList s') : responseOf (execAenc s) = responseOf (execAenc s') := by
  simp only [execAenc, hid, hfld, hc, responseOf_ite, responseOf_raiseFatal, responseOf_answerAdvancing]

/-- The capacity test, made on the same frame, decides whether AENC advances `ID`. -/
theorem idAfter_execAenc_congr {s s' : State} (hc : s.caps = s'.caps) (hid : s.ID = s'.ID)
    (hfld : fieldList s = fieldList s') : idAfter (execAenc s) = idAfter (execAenc s') := by
  simp only [execAenc, hid, hfld, hc, idAfter_ite, idAfter_raiseFatal, idAfter_answerAdvancing]

/-- IDNEXT reads `ID`. -/
theorem responseOf_execIdnext_congr {s s' : State} (hid : s.ID = s'.ID) :
    responseOf (execIdnext s) = responseOf (execIdnext s') := by
  simp only [execIdnext, hid, responseOf_answerAdvancing]

theorem idAfter_execIdnext_congr {s s' : State} (hid : s.ID = s'.ID) :
    idAfter (execIdnext s) = idAfter (execIdnext s') := by
  simp only [execIdnext, hid, idAfter_answerAdvancing]

/-! ### Every operation -/

/-- States that agree on an operation's operands get the same response. A reserved code reads nothing: its `INFO` is the
code itself (R61). -/
theorem responseOf_exec_congr {i : Instr} {s s' : State} (h : agreeOnOperands i s s') :
    responseOf (exec i s) = responseOf (exec i s') := by
  obtain ⟨hc, h⟩ := h
  cases i with
  | sum8 => exact responseOf_execSum8_congr h
  | xor8 => exact responseOf_execXor8_congr h
  | idnext => exact responseOf_execIdnext_congr h
  | aenc => exact responseOf_execAenc_congr hc h.1 h.2
  | adec => exact responseOf_execAdec_congr h hc
  | esc => exact responseOf_execEsc_congr h hc
  | unesc => exact responseOf_execUnesc_congr h hc
  | benc =>
    obtain ⟨hin, hphn, hser⟩ := h
    exact responseOf_execBenc_congr hc hin hphn hser
  | bdec => exact responseOf_execBdec_congr h hc
  | reserved0 | reservedA | reservedB | reservedC | reservedD | reservedE | reservedF => rfl

/-- Where an operation consumes an identifier, the operands it names, `ID` among them, determine the identifier it
leaves. -/
theorem idAfter_exec_congr {i : Instr} {s s' : State} (h : agreeOnOperands i s s') (hi : consumes i = true) :
    idAfter (exec i s) = idAfter (exec i s') := by
  obtain ⟨hc, h⟩ := h
  cases i with
  | idnext => exact idAfter_execIdnext_congr h
  | aenc => exact idAfter_execAenc_congr hc h.1 h.2
  | _ => cases hi

/-- Settles O45: both observations of the outcome are determined by the operands the operation names. -/
theorem responsesDependOnlyOnNamedOperands : Obligations.ResponsesDependOnlyOnNamedOperands := by
  intro i s s' t t' h ht ht'
  have hr := responseOf_exec_congr h
  have hid := idAfter_exec_congr h
  simp only [ht, ht', responseOf_next, idAfter_next, Option.some.injEq] at hr hid
  exact ⟨hr, hid⟩

end Sys2Proof.Machine

/-! SUPPORT. 40_checksum.md R102, R103: the two checksum operations. Each is one lemma about the checksum in the words of
the spec, the byte sum with its rendering and the bitwise parity, and one reasoning rule for the operation. -/

namespace Sys2Proof.Machine

open Sys2Proof.Claims

/-! ### The checksums and the rendering, in the spec's notions -/

/-- The digit table of R8 and its arithmetic description agree on the sixteen digits. -/
theorem hexDigit_eq_hexChar : ∀ n < 16, hexDigit n = hexChar n := by decide

/-- R8: `hex2` is the pair of digits, since both nibbles of a byte are below 16. -/
theorem hex2_eq_hexPair (b : Byte) : hex2 b = hexPair b := by
  have hhi : b.toNat / 16 < 16 := Nat.div_lt_of_lt_mul b.isLt
  have hlo : b.toNat % 16 < 16 := Nat.mod_lt _ (by decide)
  rw [hex2, hexPair, hexDigit_eq_hexChar _ hhi, hexDigit_eq_hexChar _ hlo]

/-- R100: `sum8` is the byte sum. -/
theorem isByteSum_sum8 (s : Bytes) : IsByteSum (sum8 s) s := sum8_toNat s

/-- R101, one bit: each byte that has the bit flips the parity of the count. -/
theorem getLsbD_xor8 (s : Bytes) (k : Nat) :
    (xor8 s).getLsbD k = decide (s.countP (fun b => b.getLsbD k) % 2 = 1) := by
  induction s with
  | nil => simp [xor8]
  | cons b s ih =>
    rw [xor8_cons, BitVec.getLsbD_xor, ih, List.countP_cons]
    cases b.getLsbD k with
    | false => simp
    | true => simp only [Bool.true_xor, if_true, ← decide_not, decide_eq_decide]; omega

/-- R101: `xor8` is the bitwise parity. -/
theorem isByteXor_xor8 (s : Bytes) : IsByteXor (xor8 s) s := fun k _ => getLsbD_xor8 s k

/-! ### The operations -/

/-- R102: SUM8 answers in every state. -/
theorem exec_sum8 (s : State) :
    exec .sum8 s = .next { s with resp :=
      { Response.cleared with RB := sum8 s.req.IN, CKC := sum8 s.req.IN, OUT := hex2 (sum8 s.req.IN) } } := rfl

/-- R103: XOR8 answers in every state and renders nothing. -/
theorem exec_xor8 (s : State) :
    exec .xor8 s = .next { s with resp :=
      { Response.cleared with RB := xor8 s.req.IN, CKC := xor8 s.req.IN } } := rfl

/-- Settles O4: the checksum is `sum8` of `IN`, which is the byte sum, and its rendering is the pair of digits. -/
theorem sum8AnswersTheByteSumModulo256 : Obligations.Sum8AnswersTheByteSumModulo256 := by
  refine ⟨by decide, fun s => ⟨sum8 s.req.IN, isByteSum_sum8 _, ?_⟩⟩
  rw [exec_sum8, hex2_eq_hexPair]

/-- Settles O5: the checksum is `xor8` of `IN`, which has the parity of each bit. -/
theorem xor8AnswersTheExclusiveOr : Obligations.Xor8AnswersTheExclusiveOr :=
  ⟨by decide, fun s => ⟨xor8 s.req.IN, isByteXor_xor8 _, exec_xor8 s⟩⟩

end Sys2Proof.Machine

/-! SUPPORT. 41_identifier.md R110 to R112, R116: the cycle of identifiers, what each operation leaves in `ID`, and what a
host action leaves in it. -/

namespace Sys2Proof.Machine

open Sys2Proof.Claims

/-! ### The successor `adv` in the cycle (R111) -/

theorem adv_of_lt {v : Byte} (hlo : 0x41 ≤ v.toNat) (hhi : v.toNat < 0x7A) : adv v = v + 1 := if_pos ⟨hlo, hhi⟩

/-- The identifier `0x7A` wraps to `0x41`, and a value outside the cycle goes there too (D7). -/
theorem adv_of_not_lt {v : Byte} (h : ¬ (0x41 ≤ v.toNat ∧ v.toNat < 0x7A)) : adv v = 0x41 := if_neg h

/-- Within the cycle the increment does not carry out of the byte. -/
theorem toNat_adv_of_lt {v : Byte} (hlo : 0x41 ≤ v.toNat) (hhi : v.toNat < 0x7A) : (adv v).toNat = v.toNat + 1 := by
  rw [adv_of_lt hlo hhi]
  bv_omega

theorem nextInCycle_adv (v : Byte) : NextInCycle v (adv v) :=
  ⟨fun h => toNat_adv_of_lt h.1 h.2, fun h => adv_of_not_lt (by omega)⟩

/-- Advancing moves every identifier, those outside the cycle included: `0x41` itself is inside and moves on. -/
theorem adv_ne_self (v : Byte) : adv v ≠ v := by
  by_cases h : 0x41 ≤ v.toNat ∧ v.toNat < 0x7A
  · rw [adv_of_lt h.1 h.2]
    bv_omega
  · rw [adv_of_not_lt h]
    bv_omega

/-- In the cycle only `0x7A` is followed by `0x41`. -/
theorem eq_last_of_adv_eq_first {v : Byte} (hlo : 0x41 ≤ v.toNat) (hhi : v.toNat ≤ 0x7A) (h : adv v = 0x41) :
    v = 0x7A := by
  by_cases hlt : v.toNat < 0x7A
  · rw [adv_of_lt hlo hlt] at h
    bv_omega
  · bv_omega

/-! ### What an operation leaves in `ID` -/

/-- R112: IDNEXT answers in every state. -/
theorem exec_idnext (s : State) :
    exec .idnext s = .next { s with ID := adv s.ID, resp := { Response.cleared with RB := s.ID } } := rfl

/-- R116: an operation that consumes no identifier writes its response and nothing else, whichever of its ends it takes. -/
theorem exec_of_not_consumes {i : Instr} (hi : consumes i = false) (s : State) :
    ∃ r, exec i s = .next { s with resp := r } := by
  cases i with
  | idnext | aenc => cases hi
  | sum8 => exact ⟨_, exec_sum8 s⟩
  | xor8 => exact ⟨_, exec_xor8 s⟩
  | adec => rcases execAdec_cases s with ⟨_, h⟩ | ⟨_, _, h⟩ | ⟨_, _, h⟩ <;> exact ⟨_, h⟩
  | esc => rcases execEsc_cases s with ⟨_, h⟩ | ⟨_, h⟩ <;> exact ⟨_, h⟩
  | unesc => rcases execUnesc_cases s with ⟨_, _, h⟩ | ⟨_, _, _, h⟩ | ⟨_, _, _, h⟩ <;> exact ⟨_, h⟩
  | benc =>
    rcases execBenc_cases s with ⟨_, _, h⟩ | ⟨_, _, h⟩ | ⟨_, _, _, _, _, h⟩ | ⟨_, _, _, _, _, _, h⟩ |
      ⟨_, _, _, _, _, _, h⟩ <;> exact ⟨_, h⟩
  | bdec =>
    rcases execBdec_cases s with ⟨_, h⟩ | ⟨_, _, _, h⟩ | ⟨_, _, _, _, h⟩ | ⟨_, _, _, _, _, h⟩ |
      ⟨_, _, _, _, _, _, h⟩ | ⟨_, _, _, _, _, _, h⟩ <;> exact ⟨_, h⟩
  | reserved0 | reservedA | reservedB | reservedC | reservedD | reservedE | reservedF => exact ⟨_, raiseFatal_eq _ s⟩

/-- The response of a fatal result is never OK (R201, R204). -/
theorem fatalResponse_STATUS_ne_zero (e : Fatal) : (fatalResponse e).STATUS ≠ 0 := e.code_ne_zero

/-- Operation `i`, answered with `r`, has issued an identifier: an IDNEXT always, an AENC when it ends without a fatal
result (R116). -/
def Issues (i : Instr) (r : Response) : Prop := i = .idnext ∨ (i = .aenc ∧ r.STATUS = 0)

/-- Only an operation that consumes identifiers issues one. -/
theorem Issues.consumes {i : Instr} {r : Response} (h : Issues i r) : consumes i = true := by
  obtain rfl | ⟨rfl, _⟩ := h <;> rfl

/-- R116: an operation advances `ID` exactly when it issues an identifier, and otherwise leaves it. -/
theorem exec_ID {i : Instr} {s t : State} (h : exec i s = .next t) :
    (Issues i t.resp ∧ t.ID = adv s.ID) ∨ (¬ Issues i t.resp ∧ t.ID = s.ID) := by
  by_cases hi : consumes i = true
  · cases i with
    | idnext =>
      cases h
      exact .inl ⟨.inl rfl, rfl⟩
    | aenc =>
      rcases execAenc_cases s with ⟨_, ha⟩ | ⟨_, ha⟩ <;> cases next_inj (ha.symm.trans h)
      · refine .inr ⟨?_, rfl⟩
        rintro (hid | ⟨_, hok⟩)
        · cases hid
        · exact fatalResponse_STATUS_ne_zero _ hok
      · exact .inl ⟨.inr ⟨rfl, rfl⟩, rfl⟩
    | _ => cases hi
  · obtain ⟨r, hr⟩ := exec_of_not_consumes (Bool.eq_false_iff.2 hi) s
    cases next_inj (hr.symm.trans h)
    exact .inr ⟨fun hissue => hi hissue.consumes, rfl⟩

/-- Settles O7: the identifier after the one answered is `adv` of it, which is its successor in the cycle. -/
theorem idnextIssuesThenAdvances : Obligations.IdnextIssuesThenAdvances :=
  ⟨by decide, fun s => ⟨adv s.ID, nextInCycle_adv s.ID, exec_idnext s⟩⟩

/-! ### What a host action leaves in `ID` -/

theorem decodeOp_eq_idnext : ∀ op : BitVec 4, decodeOp op = .idnext ↔ op = 0x3 := by decide

theorem decodeOp_eq_aenc : ∀ op : BitVec 4, decodeOp op = .aenc ↔ op = 0x4 := by decide

/-- The operation in `OP` issues an identifier, in terms of its code (R60). -/
theorem issues_selected {s : State} {r : Response} :
    Issues s.selected r ↔ s.req.OP = 0x3 ∨ (s.req.OP = 0x4 ∧ r.STATUS = 0) := by
  rw [Issues, State.selected, decodeOp_eq_idnext, decodeOp_eq_aenc]

theorem nextOf_eq_some {o : Host.Outcome State Fault Refusal} {t : State} : nextOf o = some t ↔ o = .next t := by
  cases o <;> simp [nextOf]

/-- R25, R35: a host action that neither resets nor starts an operation writes operands only. -/
theorem HostAction.apply_write {a : HostAction} {s t : State} (hreset : a ≠ .reset) (hstart : a ≠ .start)
    (h : a.apply s = some t) : ∃ q, t = { s with req := q } := by
  cases a with
  | reset => exact absurd rfl hreset
  | start => exact absurd rfl hstart
  | writeOp op => cases h; exact ⟨_, rfl⟩
  | writeSer v => cases h; exact ⟨_, rfl⟩
  | loadIn b => exact ⟨_, (State.loadIn_eq_some.1 h).2⟩
  | loadPhn b => exact ⟨_, (State.loadPhn_eq_some.1 h).2⟩
  | loadFld fields => exact ⟨_, (State.loadFld_eq_some.1 h).2⟩
  | pokeOperand sp off src =>
    rcases pokeOperand_cases h with ⟨_, _, ht⟩ | ⟨_, _, ht⟩ | ⟨_, _, _, _, _, ht⟩ <;> exact ⟨_, ht⟩

/-- R116: reset returns `ID` to `0x41`, the start of an operation that issues an identifier advances it, and everything
else leaves it. -/
theorem HostAction.apply_ID {a : HostAction} {s t : State} (h : a.apply s = some t) :
    (a = .reset ∧ t.ID = 0x41) ∨
    (a = .start ∧ Issues s.selected t.resp ∧ t.ID = adv s.ID) ∨
    (a ≠ .reset ∧ ¬ (a = .start ∧ Issues s.selected t.resp) ∧ t.ID = s.ID) := by
  by_cases hreset : a = .reset
  · subst hreset
    cases h
    exact .inl ⟨rfl, State.afterReset_ID s⟩
  by_cases hstart : a = .start
  · subst hstart
    rcases exec_ID (nextOf_eq_some.1 h) with ⟨hi, hid⟩ | ⟨hi, hid⟩
    · exact .inr (.inl ⟨rfl, hi, hid⟩)
    · exact .inr (.inr ⟨hreset, fun hs => hi hs.2, hid⟩)
  · obtain ⟨q, rfl⟩ := HostAction.apply_write hreset hstart h
    exact .inr (.inr ⟨hreset, fun hs => hstart hs.1, rfl⟩)

/-- Settles O8: of the three kinds of host action, each meets its own clause and shuts out the premises of the others. -/
theorem idChangesByResetIdnextAndCompletedAencOnly : Obligations.IdChangesByResetIdnextAndCompletedAencOnly := by
  intro a s t h
  simp only [← issues_selected]
  rcases HostAction.apply_ID h with ⟨rfl, hid⟩ | ⟨rfl, hi, hid⟩ | ⟨hreset, hno, hid⟩
  · exact ⟨fun _ => hid, nofun, fun hr => absurd rfl hr, fun _ hr => absurd rfl hr⟩
  · refine ⟨nofun, fun _ _ => ?_, fun _ hno => absurd ⟨rfl, hi⟩ hno, fun ⟨hlo, hhi⟩ _ hA _ => ?_⟩
    · rw [hid]
      exact ⟨adv_ne_self s.ID, nextInCycle_adv s.ID⟩
    · exact eq_last_of_adv_eq_first hlo hhi (hid.symm.trans hA)
  · exact ⟨fun hr => absurd hr hreset, fun hs hi => absurd ⟨hs, hi⟩ hno, fun _ _ => hid,
      fun _ _ hA hne => absurd (hid.symm.trans hA) hne⟩

end Sys2Proof.Machine

/-! SUPPORT. 43_escape.md R150, R151: the escape transform in the words of the spec, and the answer of ESC. -/

namespace Sys2Proof.Machine

open Sys2Proof.Claims

/-- R150: byte by byte, `escape` is the spec's code table. -/
theorem escape_eq_escaped (s : Bytes) : escape s = escaped s := escape_eq_flatMap s

/-- R151: where the escaped input fits `OUT`, ESC takes the second of its two ends and answers it. -/
theorem exec_esc_of_fits {s : State} (h : (escape s.req.IN).length ≤ s.caps.maxOut) :
    exec .esc s = .next { s with resp := { Response.cleared with OUT := escape s.req.IN } } := by
  rcases execEsc_cases s with ⟨hover, _⟩ | ⟨_, hanswer⟩
  · exact absurd h (Nat.not_le_of_lt hover)
  · exact hanswer

/-- Settles O27: ESC answers `escape` of `IN` where that fits `OUT`, and `escape` is the spec's transform. -/
theorem escAnswersTheEscapedInput : Obligations.EscAnswersTheEscapedInput := by
  refine ⟨by decide, fun s hfits => ?_⟩
  rw [← escape_eq_escaped] at hfits ⊢
  exact exec_esc_of_fits hfits

end Sys2Proof.Machine

/-! SUPPORT. 30_encoding.md R60 to R62: the decoder as one equation, and what it says of a step. -/

namespace Sys2Proof.Machine

open Sys2Proof.Claims

/-! ### The decoder -/

/-- R60: a byte below 16 is a code, and a wider word is none. -/
theorem decodeTableWord_eq (w : Nat) :
    decodeTableWord 8 w = if w < 16 then some (decodeOp (BitVec.ofNat 4 w)) else none := by
  have hbytes : tableBytes ((8 + 7) / 8) w = [BitVec.ofNat 8 w] := rfl
  unfold decodeTableWord
  rw [hbytes, decode, BitVec.toNat_ofNat]
  by_cases hw : w < 16
  · have hmod : w % 2 ^ 8 = w := Nat.mod_eq_of_lt (by omega)
    rw [if_pos (by omega), hmod, if_pos hw, if_pos hw]
    rfl
  · rw [if_neg hw]
    split
    · rw [if_neg (by omega)]
    · rfl

theorem decodeOp_encode (i : Instr) : decodeOp (encode i) = i := by cases i <;> rfl

theorem encode_decodeOp : ∀ op : BitVec 4, encode (decodeOp op) = op := by decide

/-- R62: an operation's code is read off its byte, and what follows is left. -/
theorem decode_encodeBytes (i : Instr) (rest : Bytes) : decode (encodeBytes i ++ rest) = .ok (i, rest) := by
  cases i <;> rfl

/-- Settles O1: the sixteen rows by evaluation, the wider words by the decoder's equation. -/
theorem operationCodesAsTabulated : Obligations.OperationCodesAsTabulated :=
  ⟨by decide, fun w hw => by rw [decodeTableWord_eq, if_neg (Nat.not_lt_of_le hw)]⟩

/-- Settles O2. -/
theorem decodingInvertsEncoding : Obligations.DecodingInvertsEncoding :=
  ⟨fun i => ⟨decodeOp_encode i, decode_encodeBytes i⟩, encode_decodeOp⟩

/-! ### The step -/

theorem selected_of_encode {s : State} {i : Instr} (h : s.req.OP = encode i) : s.selected = i := by
  rw [State.selected, h, decodeOp_encode]

theorem step_of_encode {s : State} {i : Instr} (h : s.req.OP = encode i) : step s = exec i s := by
  rw [step, selected_of_encode h]

/-- Settles O3: a word the decoder reads is the code of the operation it reads, and writing it to `OP` selects that. -/
theorem stepExecutesTheSelectedOperation : Obligations.StepExecutesTheSelectedOperation := by
  refine ⟨fun s i h => step_of_encode h, fun s w i h => step_of_encode ?_⟩
  rw [decodeTableWord_eq] at h
  obtain ⟨_, rfl⟩ := guarded_eq_some.1 h
  exact (encode_decodeOp _).symm

/-! ### The reserved codes (R61) -/

/-- The operations of the reserved codes. -/
def reservedOps : List Instr := [.reserved0, .reservedA, .reservedB, .reservedC, .reservedD, .reservedE, .reservedF]

theorem mem_reservedOps {i : Instr} : i ∈ reservedOps ↔ (encode i).toNat = 0 ∨ 0xA ≤ (encode i).toNat := by
  cases i <;> decide

/-- A reserved code is taken as a fatal result that reports the code. -/
theorem exec_of_mem_reservedOps {i : Instr} (hi : i ∈ reservedOps) (s : State) :
    exec i s = .next { s with resp := fatalResponse (.illegalOp (encode i)) } := by
  cases i with
  | reserved0 | reservedA | reservedB | reservedC | reservedD | reservedE | reservedF => rfl
  | _ => exact absurd hi (by decide)

/-- The code fits `INFO`, whose upper bits are 0. -/
theorem illegalOp_info : ∀ op : BitVec 4, (Fatal.illegalOp op).info = op.setWidth 32 := by decide

theorem fatalResponse_illegalOp (op : BitVec 4) :
    fatalResponse (.illegalOp op) = { Response.cleared with STATUS := 0x0F, INFO := op.setWidth 32 } := by
  rw [fatalResponse, illegalOp_info, Fatal.code]

/-- Settles O42. -/
theorem reservedCodesEndWithIllegalOp : Obligations.ReservedCodesEndWithIllegalOp := by
  refine ⟨fun s hop => ?_, fun i hi s => ?_⟩
  · have hcode : encode s.selected = s.req.OP := encode_decodeOp _
    have hmem : s.selected ∈ reservedOps := mem_reservedOps.2 (by rwa [hcode])
    rw [step, exec_of_mem_reservedOps hmem, hcode, fatalResponse_illegalOp]
  · rw [exec_of_mem_reservedOps hi, fatalResponse_illegalOp]

end Sys2Proof.Machine

/-! SUPPORT. 60_exceptions.md R203, R204, R211: how every operation ends, said once for all sixteen, and what follows
from it for the result registers, the buffers and the operands (10_state.md R24 to R33). -/

namespace Sys2Proof.Machine

open Sys2Proof.Claims

/-! ### The two ends of an operation -/

/-- What operation `i` answers in state `s` when it ends without a fatal result, with the capacity test that answer has
passed. -/
inductive Answers (s : State) : Instr → Response → Prop
  | sum8 : Answers s .sum8
      { Response.cleared with RB := sum8 s.req.IN, CKC := sum8 s.req.IN, OUT := hex2 (sum8 s.req.IN) }
  | xor8 : Answers s .xor8 { Response.cleared with RB := xor8 s.req.IN, CKC := xor8 s.req.IN }
  | idnext : Answers s .idnext { Response.cleared with RB := s.ID }
  | aenc (hfits : (asciiFrame s.ID s.req.FLD).length ≤ s.caps.maxOut) : Answers s .aenc
      { Response.cleared with
        OUT := asciiFrame s.ID s.req.FLD
        RB := s.ID
        CKC := sum8 (asciiCovered s.ID s.req.FLD)
        TOTAL := reg32 .TOTAL (asciiTotal s.req.FLD) }
  | adec (hmin : 16 ≤ (split 0x2C (receive s.req.IN).ftxt).length)
      (hmax : (split 0x2C (receive s.req.IN).ftxt).length ≤ s.caps.maxPart) : Answers s .adec
      (asciiResponse (receive s.req.IN) (split 0x2C (receive s.req.IN).ftxt))
  | esc (hfits : (escape s.req.IN).length ≤ s.caps.maxOut) : Answers s .esc
      { Response.cleared with OUT := escape s.req.IN }
  | unesc (o : Bytes) (hu : unescape s.req.IN = .ok o) (hfits : o.length ≤ s.caps.maxOut) : Answers s .unesc
      { Response.cleared with OUT := o }
  | benc (n : Nat) (hphn : phoneFault s.req.PHN = none)
      (hfits : (bsjFrame s.req.IN s.req.PHN n).length ≤ s.caps.maxOut) : Answers s .benc
      (bsjEncoded s.req.IN s.req.PHN n)
  | bdec (u : Bytes) (hu : unescape (bsjInner s.req.IN) = .ok u) (hlen : 14 ≤ u.length)
      (hfits : (bsjBodyOf u).tail.length ≤ s.caps.maxOut) : Answers s .bdec (bsjDecoded u)

/-- R211: every operation ends with a fatal result its row of R203 names, which leaves `ID`, or with its answer, which
advances `ID` where the operation consumes identifiers. -/
theorem exec_cases (i : Instr) (s : State) :
    (∃ e, e.code ∈ fatalCodes i ∧ exec i s = .next { s with resp := fatalResponse e }) ∨
    (∃ r, Answers s i r ∧
      exec i s = .next { s with ID := if consumes i then adv s.ID else s.ID, resp := r }) := by
  cases i with
  | sum8 => exact .inr ⟨_, .sum8, rfl⟩
  | xor8 => exact .inr ⟨_, .xor8, rfl⟩
  | idnext => exact .inr ⟨_, .idnext, rfl⟩
  | aenc =>
    rcases execAenc_cases s with ⟨_, h⟩ | ⟨hfits, h⟩
    · exact .inl ⟨_, by simp [Fatal.code, fatalCodes], h⟩
    · exact .inr ⟨_, .aenc hfits, h⟩
  | adec =>
    rcases execAdec_cases s with ⟨_, h⟩ | ⟨_, _, h⟩ | ⟨hmin, hmax, h⟩
    · exact .inl ⟨_, by simp [Fatal.code, fatalCodes], h⟩
    · exact .inl ⟨_, by simp [Fatal.code, fatalCodes], h⟩
    · exact .inr ⟨_, .adec hmin hmax, h⟩
  | esc =>
    rcases execEsc_cases s with ⟨_, h⟩ | ⟨hfits, h⟩
    · exact .inl ⟨_, by simp [Fatal.code, fatalCodes], h⟩
    · exact .inr ⟨_, .esc hfits, h⟩
  | unesc =>
    rcases execUnesc_cases s with ⟨_, _, h⟩ | ⟨_, _, _, h⟩ | ⟨o, hu, hfits, h⟩
    · exact .inl ⟨_, by simp [Fatal.code, fatalCodes], h⟩
    · exact .inl ⟨_, by simp [Fatal.code, fatalCodes], h⟩
    · exact .inr ⟨_, .unesc o hu hfits, h⟩
  | benc =>
    rcases execBenc_cases s with ⟨_, _, h⟩ | ⟨_, _, h⟩ | ⟨_, _, _, _, _, h⟩ | ⟨_, _, _, _, _, _, h⟩ |
      ⟨n, hphn, _, _, _, hfits, h⟩
    iterate 4 exact .inl ⟨_, by simp [Fatal.code, fatalCodes], h⟩
    exact .inr ⟨_, .benc n hphn hfits, h⟩
  | bdec =>
    rcases execBdec_cases s with ⟨_, h⟩ | ⟨_, _, _, h⟩ | ⟨_, _, _, _, h⟩ | ⟨_, _, _, _, _, h⟩ |
      ⟨_, _, _, _, _, _, h⟩ | ⟨u, _, _, hu, hlen, hfits, h⟩
    iterate 5 exact .inl ⟨_, by simp [Fatal.code, fatalCodes], h⟩
    exact .inr ⟨_, .bdec u hu hlen hfits, h⟩
  | reserved0 | reservedA | reservedB | reservedC | reservedD | reservedE | reservedF =>
    exact .inl ⟨.illegalOp _, by simp [Fatal.code, fatalCodes], rfl⟩

/-- The response an operation leaves is that of one of its two ends. -/
theorem resp_cases {i : Instr} {s t : State} (h : exec i s = .next t) :
    (∃ e, e.code ∈ fatalCodes i ∧ t.resp = fatalResponse e) ∨ Answers s i t.resp := by
  rcases exec_cases i s with ⟨e, he, hx⟩ | ⟨r, hr, hx⟩ <;> cases next_inj (hx.symm.trans h)
  · exact .inl ⟨e, he, rfl⟩
  · exact .inr hr

/-- Where `STATUS` is OK the response is the operation's answer. -/
theorem answers_of_ok {i : Instr} {s t : State} (h : exec i s = .next t) (hok : t.resp.STATUS = 0) :
    Answers s i t.resp := by
  rcases resp_cases h with ⟨e, _, hr⟩ | hr
  · rw [hr] at hok
    exact absurd hok (fatalResponse_STATUS_ne_zero e)
  · exact hr

/-- R26, R28: an answer is an OK record. -/
theorem Answers.STATUS {s : State} {i : Instr} {r : Response} (h : Answers s i r) : r.STATUS = 0 := by cases h <;> rfl

theorem Answers.INFO {s : State} {i : Instr} {r : Response} (h : Answers s i r) : r.INFO = 0 := by cases h <;> rfl

/-- R54: an operation that consumes an identifier reports it. -/
theorem Answers.RB {s : State} {i : Instr} {r : Response} (h : Answers s i r) (hi : consumes i = true) :
    r.RB = s.ID := by
  cases h with
  | idnext | aenc => rfl
  | _ => cases hi

/-- The operands and the capacities are as before. -/
theorem exec_frame {i : Instr} {s t : State} (h : exec i s = .next t) : t.req = s.req ∧ t.caps = s.caps := by
  rcases exec_cases i s with ⟨e, _, hx⟩ | ⟨r, _, hx⟩ <;> cases next_inj (hx.symm.trans h) <;> exact ⟨rfl, rfl⟩

/-- Settles O43: an answer advances `ID` where the operation consumes identifiers, a fatal result never. -/
theorem everyOperationEndsAndTouchesOnlyItsOwn : Obligations.EveryOperationEndsAndTouchesOnlyItsOwn := by
  intro i s
  rcases exec_cases i s with ⟨e, _, h⟩ | ⟨r, hr, h⟩
  · exact ⟨s.ID, fatalResponse e, h, .inl rfl,
      fun _ => ⟨fun hok => absurd hok (fatalResponse_STATUS_ne_zero e), fun _ => rfl⟩⟩
  · refine ⟨_, r, h, ?_, fun hi => ⟨fun _ => ⟨hr.RB hi, ?_⟩, fun hne => absurd hr.STATUS hne⟩⟩
    · by_cases hi : consumes i = true
      · exact .inr hi
      · exact .inl (if_neg hi)
    · rw [if_pos hi]
      exact nextInCycle_adv s.ID

/-- Settles O44: no operation reads the response, and every end of it replaces the whole. -/
theorem noResultSurvivesTheNextOperation : Obligations.NoResultSurvivesTheNextOperation := by
  intro i s old
  cases i <;> rfl

/-- Settles O46: an operation that issues nothing differs from its state in the response only, which it does not read. -/
theorem operationsOtherThanIssuingAreIdempotent : Obligations.OperationsOtherThanIssuingAreIdempotent := by
  intro i s t hi h
  obtain ⟨r, hr⟩ := exec_of_not_consumes hi s
  cases next_inj (hr.symm.trans h)
  rw [noResultSurvivesTheNextOperation i s r, hr]

/-- Settles O9: a value outside the range is not below the last identifier of the cycle, so `adv` answers the first. -/
theorem identifiersOutsideTheCycleReturnToA : Obligations.IdentifiersOutsideTheCycleReturnToA := by
  intro s t i hout hi h hok
  rcases exec_cases i s with ⟨e, _, hx⟩ | ⟨r, _, hx⟩ <;> cases next_inj (hx.symm.trans h)
  · exact absurd hok (fatalResponse_STATUS_ne_zero e)
  · show (if consumes i then adv s.ID else s.ID) = 0x41
    rw [if_pos hi, adv_of_not_lt (by omega)]

/-! ### `FLAGS` (R27, R203) -/

/-- The flags outside a mask are 0 when each named condition outside it is false. -/
theorem flags_and_not_mask {c : Conditions} {mask : Half}
    (h : ∀ k < 9, mask.getLsbD k = false → c.flags.getLsbD k = false) : c.flags &&& ~~~ mask = 0 := by
  apply BitVec.eq_of_getLsbD_eq
  intro k hk
  simp only [BitVec.getLsbD_and, BitVec.getLsbD_not, hk, decide_true, Bool.true_and]
  by_cases h9 : k < 9
  · cases hm : mask.getLsbD k with
    | true => simp
    | false => simp [h k h9 hm]
  · simp [flags_reserved c (Nat.le_of_not_lt h9)]

/-- R203: an operation sets no flag but those its row names. -/
theorem Answers.flags_masked {s : State} {i : Instr} {r : Response} (h : Answers s i r) :
    r.FLAGS &&& ~~~ flagMask i = 0 := by
  cases h with
  | adec =>
    refine flags_and_not_mask (mask := 0x013F) fun k hk => ?_
    interval_cases k <;> simp [asciiConditions, checksumVerdict]
  | bdec =>
    refine flags_and_not_mask (mask := 0x00C7) fun k hk => ?_
    interval_cases k <;> simp [bsjConditions, checksumVerdict]
  | _ => exact BitVec.zero_and

/-- The three-state verdict over the flags of a response (R27): not found, valid or mismatch; the reserved bits 0. -/
def VerdictForm (f : Half) : Prop :=
  f.getLsbD 2 = (f.getLsbD 0 && !f.getLsbD 1) ∧ (f.getLsbD 1 = true → f.getLsbD 0 = true) ∧ f.toNat < 2 ^ 9

/-- The nine named bits are all a set of conditions makes. -/
theorem flags_toNat_lt (c : Conditions) : c.flags.toNat < 2 ^ 9 := by
  refine Nat.lt_pow_two_of_testBit _ fun k hk => ?_
  rw [BitVec.testBit_toNat]
  exact flags_reserved c hk

/-- Conditions whose checksum part is a verdict make flags of the three-state form. -/
theorem verdictForm_flags {c : Conditions} {found agree : Bool} (hf : c.ckFound = found)
    (hv : c.ckValid = (found && agree)) (hm : c.ckMismatch = (found && !(found && agree))) : VerdictForm c.flags := by
  refine ⟨?_, ?_, flags_toNat_lt c⟩ <;> cases found <;> cases agree <;> simp [hf, hv, hm]

theorem verdictForm_zero : VerdictForm 0 := by unfold VerdictForm; decide

theorem Answers.verdictForm {s : State} {i : Instr} {r : Response} (h : Answers s i r) : VerdictForm r.FLAGS := by
  cases h with
  | adec => exact verdictForm_flags rfl rfl rfl
  | bdec => exact verdictForm_flags rfl rfl rfl
  | _ => exact verdictForm_zero

/-- Settles O48: a fatal result has its code from the row and nothing else, an answer the flags of its row. -/
theorem resultCodesAndFlagsByOperation : Obligations.ResultCodesAndFlagsByOperation := by
  intro i s t h
  rcases resp_cases h with ⟨e, he, hr⟩ | hr
  · rw [hr]
    exact ⟨.inr he, BitVec.zero_and, fun hok => absurd hok (fatalResponse_STATUS_ne_zero e), fun _ => rfl⟩
  · exact ⟨.inl hr.STATUS, hr.flags_masked, fun _ => hr.INFO, fun hne => absurd hr.STATUS hne⟩

/-- After every operation the flags have the three-state form: a fatal result sets none. -/
theorem exec_verdictForm {i : Instr} {s t : State} (h : exec i s = .next t) : VerdictForm t.resp.FLAGS := by
  rcases resp_cases h with ⟨e, _, hr⟩ | hr
  · rw [hr]
    exact verdictForm_zero
  · exact hr.verdictForm

/-- BDEC finds a checksum in every frame it reports. -/
theorem Answers.bdec_found {s : State} {r : Response} (h : Answers s .bdec r) : r.FLAGS.getLsbD 0 = true := by
  cases h with
  | bdec u => exact (BitVec.getLsbD_eq_getElem (by decide)).trans (flags_ckFound (bsjConditions u))

/-- Settles O49. -/
theorem checksumVerdictHasThreeStates : Obligations.ChecksumVerdictHasThreeStates := by
  intro i s t h
  obtain ⟨hmismatch, hvalid, _⟩ := exec_verdictForm h
  refine ⟨hmismatch, hvalid, ?_⟩
  rintro rfl hok
  exact (answers_of_ok h hok).bdec_found

/-! ### The scalar result registers and the buffers (R29, R30, R33) -/

/-- Settles O50: each answer writes the registers of its row over the cleared record, and a fatal result none. -/
theorem scalarResultsAreZeroUnlessWritten : Obligations.ScalarResultsAreZeroUnlessWritten := by
  intro i s t h
  rcases resp_cases h with ⟨e, _, hr⟩ | hr
  · rw [hr]
    exact ⟨fun _ => rfl, fun _ => rfl, fun _ => ⟨rfl, rfl⟩, fun _ => rfl,
      fun _ => ⟨rfl, rfl, rfl, rfl, rfl, rfl, rfl, rfl⟩, fun _ => ⟨rfl, rfl, rfl⟩⟩
  · generalize t.resp = r at hr
    cases hr <;>
      simp [Response.cleared, asciiResponse, bsjEncoded, bsjDecoded]

/-- An answer leaves every result space its operation does not fill empty: each answer against each space is either
excluded by `fills` or still what the cleared record holds. -/
theorem Answers.space_eq_nil {s t : State} {i : Instr} {sp : Space} (h : Answers s i t.resp)
    (hres : operandSpace sp = false) (hfill : fills i sp = false) : t.space sp = [] := by
  generalize hr : t.resp = r at h
  cases sp with
  | IN | PHN | FLD _ => cases hres
  | OUT | OUTHEX | CKTXT | BCD | PHONE | PART _ | CELL _ | AD _ =>
    rw [State.space, hr]
    cases h <;> simp [fills] at hfill <;> rfl

/-- The operand spaces are views of the operands alone. -/
theorem space_eq_of_req_eq {s t : State} {sp : Space} (h : t.req = s.req) (hop : operandSpace sp = true) :
    t.space sp = s.space sp := by
  cases sp with
  | IN | PHN | FLD _ => rw [State.space, State.space, h]
  | _ => cases hop

/-- A cleared response has every result space empty. -/
theorem space_eq_nil_of_fatal {t : State} {e : Fatal} {sp : Space} (hr : t.resp = fatalResponse e)
    (hres : operandSpace sp = false) : t.space sp = [] := by
  cases sp with
  | IN | PHN | FLD _ => cases hres
  | _ => rw [State.space, hr]; rfl

/-- Settles O51. -/
theorem buffersChangeOnlyWhereAnOperationFillsThem : Obligations.BuffersChangeOnlyWhereAnOperationFillsThem := by
  intro i s t sp off h
  refine ⟨fun hop => ?_, fun hres hfill => ?_⟩
  · rw [State.readByte, State.readByte, space_eq_of_req_eq (exec_frame h).1 hop]
  · rw [readByte_eq_none]
    rcases resp_cases h with ⟨e, _, hr⟩ | hr
    · simp [space_eq_nil_of_fatal hr hres]
    · simp [hr.space_eq_nil hres hfill]

end Sys2Proof.Machine

/-! SUPPORT. 41_identifier.md R110 to R114, 20_memory.md R54: places in the cycle of identifiers, along steps of IDNEXT and
along scripts. -/

namespace Sys2Proof.Machine

open Sys2Proof.Claims

/-! ### The cycle by places -/

/-- The identifier range of R21, of a value. -/
def InCycle (v : Byte) : Prop := 0x41 ≤ v.toNat ∧ v.toNat ≤ 0x7A

/-- One place further in the cycle of 58. -/
theorem toNat_adv {v : Byte} (h : InCycle v) : (adv v).toNat = 0x41 + (v.toNat - 0x41 + 1) % 58 := by
  obtain ⟨hlo, hhi⟩ := h
  by_cases hlt : v.toNat < 0x7A
  · rw [toNat_adv_of_lt hlo hlt]
    omega
  · rw [adv_of_not_lt (by omega), show v.toNat = 0x7A by omega]
    rfl

theorem inCycle_adv {v : Byte} (h : InCycle v) : InCycle (adv v) := by
  rw [InCycle, toNat_adv h]
  omega

/-- R114: `n` places further, modulo 58. -/
theorem toNat_adv_iterate {v : Byte} (h : InCycle v) (n : Nat) :
    (adv^[n] v).toNat = 0x41 + (v.toNat - 0x41 + n) % 58 := by
  induction n generalizing v with
  | zero =>
    obtain ⟨hlo, hhi⟩ := h
    rw [Function.iterate_zero_apply]
    omega
  | succ n ih =>
    rw [Function.iterate_succ_apply, ih (inCycle_adv h), toNat_adv h]
    omega

/-- Settles O53: an operation leaves `ID` or advances it, and `adv` stays in the range. -/
theorem stepKeepsIdInRange : Obligations.StepKeepsIdInRange := by
  intro s t hs h
  rcases exec_ID h with ⟨_, hid⟩ | ⟨_, hid⟩ <;> rw [IdInRange, hid]
  · exact inCycle_adv hs
  · exact hs

/-! ### Steps of IDNEXT -/

/-- `n + 1` steps of IDNEXT advance `ID` as often, and the last one answers the identifier before. -/
theorem run_idnext (n : Nat) {s : State} (hop : s.req.OP = 0x3) : Host.Core.run core (n + 1) s =
    .next { s with ID := adv^[n + 1] s.ID, resp := { Response.cleared with RB := adv^[n] s.ID } } := by
  have hstep : core.step s = .next { s with ID := adv s.ID, resp := { Response.cleared with RB := s.ID } } :=
    (step_of_encode (i := .idnext) hop).trans (exec_idnext s)
  induction n generalizing s with
  | zero => exact run_succ_of_next 0 hstep
  | succ n ih => exact (run_succ_of_next (n + 1) hstep).trans (ih hop (step_of_encode (i := .idnext) hop))

/-- Settles O10, by induction on the steps. -/
theorem repeatedIdnextCyclesThroughFiftyEight : Obligations.RepeatedIdnextCyclesThroughFiftyEight :=
  fun _ n hs hop => ⟨_, run_idnext n hop, toNat_adv_iterate hs (n + 1), toNat_adv_iterate hs n⟩

/-! ### Scripts -/

/-- The operation of a request. -/
def requestOp (q : Request) : Instr := decodeOp (requestCode q)

/-- A request is served exactly when it is well formed: its operands are loaded and its operation ends. -/
theorem serve_eq_some {q : Request} {s t : State} : serve q s = some t ↔
    q.wf s.caps = true ∧ exec (requestOp q) { s with req := requestOperands q s.req } = .next t := by
  have hop : (requestOperands q s.req).OP = requestCode q := by cases q <;> rfl
  unfold serve
  by_cases hq : q.wf s.caps = true
  · rw [loadRequest_eq_some.2 ⟨hq, rfl⟩]
    simp only [nextOf_eq_some, step, State.selected, hop, requestOp, hq, true_and]
  · rw [show loadRequest q s = none from if_neg hq]
    simp [hq]

/-- R61: a well-formed illegal request names a reserved operation. -/
theorem requestOp_illegal_mem {c : Config.Caps} {op : BitVec 4} (h : (Request.illegal op).wf c = true) :
    requestOp (.illegal op) ∈ reservedOps :=
  mem_reservedOps.2 (by rw [requestOp, encode_decodeOp]; exact of_decide_eq_true h)

/-- A request is listed as the issuer of the identifier it consumed, and of none where it consumed none. -/
theorem issuedBy_eq {c : Config.Caps} {q : Request} {r : Response} (hq : q.wf c = true) :
    (Issues (requestOp q) r → issuedBy q r = [r.RB]) ∧ (¬ Issues (requestOp q) r → issuedBy q r = []) := by
  cases q with
  | idnext => exact ⟨fun _ => rfl, fun h => absurd (.inl rfl) h⟩
  | aenc fields =>
    refine ⟨fun h => if_pos ?_, fun h => if_neg fun hok => h (.inr ⟨rfl, hok⟩)⟩
    obtain h | ⟨_, hok⟩ := h
    · cases h
    · exact hok
  | illegal op =>
    refine ⟨fun h => ?_, fun _ => rfl⟩
    have hmem := requestOp_illegal_mem hq
    obtain h | ⟨h, _⟩ := h <;> rw [h] at hmem <;> exact absurd hmem (by decide)
  | _ => exact ⟨fun h => absurd h.consumes Bool.false_ne_true, fun _ => rfl⟩

/-- The identifier an operation issues is the one `ID` held. -/
theorem RB_of_issues {i : Instr} {s t : State} (h : exec i s = .next t) (hi : Issues i t.resp) : t.resp.RB = s.ID := by
  rcases resp_cases h with ⟨e, he, hr⟩ | hr
  · obtain rfl | ⟨_, hok⟩ := hi
    · cases he
    · exact absurd (hr ▸ hok) (fatalResponse_STATUS_ne_zero e)
  · exact hr.RB hi.consumes

/-- R54: a served request issues `ID` and advances it, or issues nothing and leaves it. -/
theorem serve_issues {q : Request} {s t : State} (h : serve q s = some t) :
    (issuedBy q t.resp = [s.ID] ∧ t.ID = adv s.ID) ∨ (issuedBy q t.resp = [] ∧ t.ID = s.ID) := by
  obtain ⟨hq, hx⟩ := serve_eq_some.1 h
  obtain ⟨hissued, hnone⟩ := issuedBy_eq (r := t.resp) hq
  rcases exec_ID hx with ⟨hi, hid⟩ | ⟨hi, hid⟩
  · exact .inl ⟨RB_of_issues hx hi ▸ hissued hi, hid⟩
  · exact .inr ⟨hnone hi, hid⟩

/-- A script runs request by request: the first is served, and the rest runs from there. -/
theorem runScript_cons_eq_some {q : Request} {qs : List Request} {s t : State} {rs : List Response} :
    runScript (q :: qs) s = some (rs, t) ↔
      ∃ u us, serve q s = some u ∧ runScript qs u = some (us, t) ∧ rs = u.resp :: us := by
  rw [runScript]
  cases serve q s with
  | none => simp
  | some u =>
    dsimp only
    cases hrest : runScript qs u with
    | none => simp [hrest]
    | some p =>
      obtain ⟨us, v⟩ := p
      simp only [Option.some.injEq, Prod.mk.injEq]
      constructor
      · rintro ⟨rfl, rfl⟩
        exact ⟨u, us, rfl, hrest, rfl⟩
      · rintro ⟨_, us', rfl, h, rfl⟩
        cases hrest.symm.trans h
        exact ⟨rfl, rfl⟩

/-- The identifiers a script issues are `ID` and its successors, and `ID` ends at the next one. -/
theorem runScript_issues {qs : List Request} {s t : State} {rs : List Response} (h : runScript qs s = some (rs, t)) :
    issuedIds qs rs = List.iterate adv s.ID (issuedIds qs rs).length ∧ t.ID = adv^[(issuedIds qs rs).length] s.ID := by
  induction qs generalizing s rs with
  | nil =>
    cases h
    exact ⟨rfl, rfl⟩
  | cons q qs ih =>
    obtain ⟨u, us, hu, hrest, rfl⟩ := runScript_cons_eq_some.1 h
    obtain ⟨hids, hid⟩ := ih hrest
    rcases serve_issues hu with ⟨hissue, hnext⟩ | ⟨hissue, hnext⟩ <;> rw [hnext] at hids hid <;>
      rw [issuedIds, hissue]
    · exact ⟨congrArg (s.ID :: ·) hids, hid⟩
    · exact ⟨hids, hid⟩

/-- Settles O11: by induction on the script its identifiers are successors, and the `k`th of those has a known place. -/
theorem scriptsIssueConsecutiveIdentifiers : Obligations.ScriptsIssueConsecutiveIdentifiers := by
  intro qs s t rs hs h
  obtain ⟨hids, hid⟩ := runScript_issues h
  refine ⟨fun k v hk => ?_, hid ▸ toNat_adv_iterate hs _⟩
  have hlt : k < (issuedIds qs rs).length := (List.getElem?_eq_some_iff.1 hk).1
  rw [hids, List.getElem?_iterate _ _ _ _ hlt, Option.some.injEq] at hk
  rw [← hk, toNat_adv_iterate hs]

end Sys2Proof.Machine

/-! SUPPORT. 10_state.md R20 to R35, R39: the invariant of the block over steps and host actions, what host writes reach,
and requests and scripts. -/

namespace Sys2Proof.Machine

open Sys2Proof.Config Sys2Proof.Claims

/-! ### Reset -/

/-- A block after reset holds no byte in any space. -/
theorem afterReset_space (s : State) (sp : Space) : s.afterReset.space sp = [] := by cases sp <;> rfl

/-- An empty buffer's length register is 0. -/
theorem reg32_zero (r : WideReg) : reg32 r 0 = 0 := rfl

/-- Settles O52: reset writes the cleared operands and the cleared response. -/
theorem resetLeavesEverythingEmptyAndIdA : Obligations.ResetLeavesEverythingEmptyAndIdA := by
  rintro s _ rfl
  have hread (sp : Space) (off : Nat) : s.afterReset.readByte sp off = none :=
    readByte_eq_none.2 (by simp [afterReset_space])
  refine ⟨rfl, rfl, ?_⟩
  simp [Operands.cleared, Response.cleared, State.INLEN, State.PHNLEN, State.NF, State.OUTLEN, State.HEXLEN,
    State.CKTLEN, State.NP, State.FLEN, State.PLEN, State.CLEN, State.ALEN, afterReset_space, reg32_zero, hread,
    exec_idnext]

theorem responseForm_cleared : ResponseForm Response.cleared := by decide

theorem inv_reset {c : Caps} (h : c.ok) : Inv { State.reset with caps := c } :=
  ⟨(by decide : IdInRange State.reset), ⟨h, operandsWf_cleared c, responseWf_cleared c⟩, responseForm_cleared⟩

/-- Settles O55. -/
theorem resetMeetsTheInvariant : Obligations.ResetMeetsTheInvariant :=
  ⟨inv_reset (c := Caps.suggested) (by decide), fun _ hc => inv_reset hc⟩

/-! ### Every step keeps the form of memory (R30, R31) -/

theorem stripCrlf_length_le (b : Bytes) : (stripCrlf b).length ≤ b.length := by
  rw [stripCrlf]
  split
  · simp
  · exact Nat.le_refl _

/-- Checksum text and field text are cut out of the input. -/
theorem receive_length_le (b : Bytes) : (receive b).cktxt.length ≤ b.length ∧ (receive b).ftxt.length ≤ b.length := by
  have hstrip := stripCrlf_length_le b
  rcases lastStar_cases (stripCrlf b) with h | ⟨p, q, hs, hq⟩
  · rw [receive_of_no_star h]
    exact ⟨Nat.zero_le _, hstrip⟩
  · rw [receive_of_star hs hq]
    rw [hs, List.length_append, List.length_cons] at hstrip
    exact ⟨by dsimp only; omega, by dsimp only; omega⟩

/-- A populated group has its number of sub-parts, each within a part; an absent one is empty. -/
theorem group_getD_form {index n m : Nat} {parts : List Bytes} (hparts : ∀ p ∈ parts, p.length ≤ m) :
    (((group index n parts).getD []).length = 0 ∨ ((group index n parts).getD []).length = n) ∧
    ∀ p ∈ (group index n parts).getD [], p.length ≤ m := by
  cases hp : parts[index]? with
  | none => rw [group_of_absent (List.getElem?_eq_none_iff.1 hp)]; simp
  | some part =>
    rw [group_of_part hp]
    split
    · simp
    · rename_i hlen
      have hpart := hparts part (List.mem_of_getElem? hp)
      refine ⟨.inr (List.length_take_of_le (Nat.le_of_not_lt hlen)), fun p hmem => ?_⟩
      exact Nat.le_trans (length_le_of_mem_split (List.mem_of_mem_take hmem)) hpart

theorem responseWf_asciiResponse {c : Caps} {b : Bytes} (hin : b.length ≤ c.maxIn)
    (hmax : (split 0x2C (receive b).ftxt).length ≤ c.maxPart) :
    Memory.responseWf c (asciiResponse (receive b) (split 0x2C (receive b).ftxt)) := by
  obtain ⟨hck, hftxt⟩ := receive_length_le b
  have hparts : ∀ p ∈ split 0x2C (receive b).ftxt, p.length ≤ c.maxIn := fun p hp =>
    Nat.le_trans (length_le_of_mem_split hp) (Nat.le_trans hftxt hin)
  obtain ⟨hcell, hcellLen⟩ := group_getD_form (index := 16) (n := 4) hparts
  obtain ⟨had, hadLen⟩ := group_getD_form (index := 18) (n := 5) hparts
  exact ⟨Nat.zero_le _, Nat.zero_le _, Nat.le_trans hck hin, .inl rfl, .inl rfl, hmax, hparts, hcell, hcellLen, had,
    hadLen⟩

theorem responseWf_bsjEncoded {c : Caps} {cmd phone : Bytes} {n : Nat} (hphn : phoneFault phone = none)
    (hfits : (bsjFrame cmd phone n).length ≤ c.maxOut) : Memory.responseWf c (bsjEncoded cmd phone n) := by
  have hpad : (padPhone phone).length = 12 := padPhone_length (length_le_of_phoneFault hphn)
  have hbcd : (packBcd (padPhone phone)).length = 6 := by rw [packBcd_length, hpad]
  refine ⟨hfits, ?_, Nat.zero_le _, .inr hbcd, .inr hpad, Nat.zero_le _, nofun, .inl rfl, nofun, .inl rfl, nofun⟩
  exact (hexstr_length _).trans_le (Nat.mul_le_mul_left 2 hfits)

theorem responseWf_bsjDecoded {c : Caps} {u : Bytes} (hlen : 14 ≤ u.length)
    (hfits : (bsjBodyOf u).tail.length ≤ c.maxOut) : Memory.responseWf c (bsjDecoded u) := by
  have hphone : (bsjDecoded u).PHONE.length = 0 ∨ (bsjDecoded u).PHONE.length = 12 := by
    rw [bsjDecoded]
    split
    · exact .inr (by rw [List.length_map, nibbles_length, bsjBcd_length hlen])
    · exact .inl rfl
  exact ⟨hfits, Nat.zero_le _, Nat.zero_le _, .inr (bsjBcd_length hlen), hphone, Nat.zero_le _, nofun, .inl rfl, nofun,
    .inl rfl, nofun⟩

/-- A response that fills `OUT` only is within its capacities when `OUT` is. -/
theorem responseWf_of_out {c : Caps} {r : Response} (hout : r.OUT.length ≤ c.maxOut)
    (hrest : { r with OUT := [] } = { Response.cleared with
      RB := r.RB, CKC := r.CKC, TOTAL := r.TOTAL }) : Memory.responseWf c r := by
  cases r
  cases hrest
  exact ⟨hout, (responseWf_cleared c).2⟩

theorem Answers.responseWf {s : State} {i : Instr} {r : Response} (h : Answers s i r) (hs : Memory.wf s) :
    Memory.responseWf s.caps r := by
  obtain ⟨hcaps, ⟨⟨hin, _⟩, _⟩, _⟩ := hs
  cases h with
  | sum8 => exact responseWf_of_out hcaps.2.1 rfl
  | xor8 | idnext => exact responseWf_of_out (Nat.zero_le _) rfl
  | aenc hfits | esc hfits | unesc _ _ hfits => exact responseWf_of_out hfits rfl
  | adec _ hmax => exact responseWf_asciiResponse hin hmax
  | benc _ hphn hfits => exact responseWf_bsjEncoded hphn hfits
  | bdec _ _ hlen hfits => exact responseWf_bsjDecoded hlen hfits

theorem wf_exec {i : Instr} {s t : State} (hs : Memory.wf s) (h : exec i s = .next t) : Memory.wf t := by
  obtain ⟨hreq, hcaps⟩ := exec_frame h
  have hresp : Memory.responseWf s.caps t.resp := by
    rcases resp_cases h with ⟨e, _, hr⟩ | hr
    · rw [hr]
      exact responseWf_fatal s.caps e
    · exact hr.responseWf hs
  rw [Memory.wf, hreq, hcaps]
  exact ⟨hs.1, hs.2.1, hresp⟩

/-- Settles O54: operands and capacities stay, and the response of either end fits. -/
theorem stepKeepsMemoryForm : Obligations.StepKeepsMemoryForm := fun _ _ hs h => wf_exec hs h

/-! ### The invariant over everything a host can do -/

theorem code_mem_statusCodes (e : Fatal) : e.code ∈ statusCodes := by cases e <;> simp [Fatal.code, statusCodes]

theorem responseForm_exec {i : Instr} {s t : State} (h : exec i s = .next t) : ResponseForm t.resp := by
  obtain ⟨_, _, hinfo, hfatal⟩ := resultCodesAndFlagsByOperation i s t h
  obtain ⟨hmismatch, hvalid, hlt⟩ := exec_verdictForm h
  refine ⟨?_, hinfo, hfatal, hlt, hvalid, hmismatch⟩
  rcases resp_cases h with ⟨e, _, hr⟩ | hr
  · rw [hr]
    exact code_mem_statusCodes e
  · rw [hr.STATUS]
    decide

theorem wf_apply {a : HostAction} {s t : State} (hs : Memory.wf s) (h : a.apply s = some t) : Memory.wf t := by
  cases a with
  | reset => cases h; exact wf_afterReset hs.1
  | writeOp op => cases h; exact wf_writeOp op hs
  | writeSer v => cases h; exact wf_writeSer v hs
  | loadIn b => exact wf_loadIn hs h
  | loadPhn b => exact wf_loadPhn hs h
  | loadFld fields => exact wf_loadFld hs h
  | pokeOperand sp off src => exact wf_pokeOperand hs h
  | start => exact wf_exec hs (nextOf_eq_some.1 h)

/-- Reset writes the cleared response, an operation one of the form, and a host write none. -/
theorem responseForm_apply {a : HostAction} {s t : State} (hs : ResponseForm s.resp) (h : a.apply s = some t) :
    ResponseForm t.resp := by
  by_cases hreset : a = .reset
  · subst hreset
    cases h
    exact responseForm_cleared
  by_cases hstart : a = .start
  · subst hstart
    exact responseForm_exec (nextOf_eq_some.1 h)
  · obtain ⟨q, rfl⟩ := HostAction.apply_write hreset hstart h
    exact hs

theorem idInRange_apply {a : HostAction} {s t : State} (hs : IdInRange s) (h : a.apply s = some t) : IdInRange t := by
  rcases HostAction.apply_ID h with ⟨_, hid⟩ | ⟨_, _, hid⟩ | ⟨_, _, hid⟩ <;> rw [IdInRange, hid]
  · decide
  · exact inCycle_adv hs
  · exact hs

/-- Settles O56: the invariant holds after reset, and each of its three parts is kept by every host action. -/
theorem reachableStatesMeetTheInvariant : Obligations.ReachableStatesMeetTheInvariant := by
  intro s hs
  induction hs with
  | ofReset c h => exact inv_reset h
  | ofAction s t a _ h ih =>
    obtain ⟨hid, hmem, hresp⟩ := ih
    exact ⟨idInRange_apply hid h, wf_apply hmem h, responseForm_apply hresp h⟩

/-! ### Host writes -/

/-- A host write leaves operands that fit: a load is guarded, and a write in place keeps the length. -/
theorem operandsWf_apply {a : HostAction} {s t : State} (hreset : a ≠ .reset) (hstart : a ≠ .start)
    (h : a.apply s = some t) (hs : Memory.operandsWf s.caps s.req) : Memory.operandsWf s.caps t.req := by
  obtain ⟨hin, hphn, hfld⟩ := hs
  cases a with
  | reset => exact absurd rfl hreset
  | start => exact absurd rfl hstart
  | writeOp op => cases h; exact ⟨hin, hphn, hfld⟩
  | writeSer v => cases h; exact ⟨hin, hphn, hfld⟩
  | loadIn b =>
    obtain ⟨hb, rfl⟩ := State.loadIn_eq_some.1 h
    exact ⟨hb, hphn, hfld⟩
  | loadPhn b =>
    obtain ⟨hb, rfl⟩ := State.loadPhn_eq_some.1 h
    exact ⟨hin, hb, hfld⟩
  | loadFld fields =>
    obtain ⟨hf, rfl⟩ := State.loadFld_eq_some.1 h
    exact ⟨hin, hphn, hf⟩
  | pokeOperand sp off src =>
    rcases pokeOperand_cases h with ⟨b, hb, rfl⟩ | ⟨b, hb, rfl⟩ | ⟨i, f, b, hf, hb, rfl⟩
    · exact ⟨by rwa [inFits, memWrite_length hb], hphn, hfld⟩
    · exact ⟨hin, by rwa [phnFits, memWrite_length hb], hfld⟩
    · exact ⟨hin, hphn, fldFits_set hfld hf (memWrite_length hb)⟩

/-- Settles O57. -/
theorem hostWritesReachOnlyOperands : Obligations.HostWritesReachOnlyOperands := by
  intro a s t hreset hstart h
  have hops := operandsWf_apply hreset hstart h
  obtain ⟨q, rfl⟩ := HostAction.apply_write hreset hstart h
  exact ⟨rfl, rfl, rfl, hops⟩

/-- The bytes named by a write read back one by one. -/
theorem memWrite_getElem?_of_inside {b src r : Bytes} {off k : Nat} (h : memWrite b off src = some r)
    (hk : k < src.length) : r[off + k]? = src[k]? := by
  obtain ⟨hl, rfl⟩ := memWrite_eq_some.1 h
  have ht : (b.take off).length = off := by simp; omega
  rw [List.append_assoc, List.getElem?_append_right (by omega), ht, Nat.add_sub_cancel_left,
    List.getElem?_append_left hk]

/-- A write in place is a write to the space it names, and leaves every other space. -/
theorem pokeOperand_space {s t : State} {sp : Space} {off : Nat} {src : Bytes} (h : s.pokeOperand sp off src = some t) :
    operandSpace sp = true ∧ memWrite (s.space sp) off src = some (t.space sp) ∧
    ∀ sp', sp' ≠ sp → t.space sp' = s.space sp' := by
  cases sp with
  | IN =>
    obtain ⟨b, hb, rfl⟩ := Option.map_eq_some_iff.1 h
    refine ⟨rfl, hb, fun sp' hne => ?_⟩
    cases sp' with
    | IN => exact absurd rfl hne
    | _ => rfl
  | PHN =>
    obtain ⟨b, hb, rfl⟩ := Option.map_eq_some_iff.1 h
    refine ⟨rfl, hb, fun sp' hne => ?_⟩
    cases sp' with
    | PHN => exact absurd rfl hne
    | _ => rfl
  | FLD i =>
    simp only [State.pokeOperand] at h
    split at h
    · cases h
    · rename_i f hf
      obtain ⟨b, hb, rfl⟩ := Option.map_eq_some_iff.1 h
      obtain ⟨hlt, rfl⟩ := List.getElem?_eq_some_iff.1 hf
      refine ⟨rfl, ?_, fun sp' hne => ?_⟩
      · simpa [State.space, hlt] using hb
      · cases sp' with
        | FLD j =>
          have hij : i ≠ j := fun e => hne (congrArg Space.FLD e.symm)
          simp [State.space, List.getElem?_set_ne hij]
        | _ => rfl
  | OUT | OUTHEX | CKTXT | BCD | PHONE | PART _ | CELL _ | AD _ => cases h

/-- Settles O58. -/
theorem inPlaceWritesSetExactlyTheirBytes : Obligations.InPlaceWritesSetExactlyTheirBytes := by
  intro s t sp off src h
  obtain ⟨hop, hw, hother⟩ := pokeOperand_space h
  refine ⟨hop, fun k b hk => ?_, fun sp' off' hout => ?_⟩
  · exact (memWrite_getElem?_of_inside hw (List.getElem?_eq_some_iff.1 hk).1).trans hk
  · by_cases hsp : sp' = sp
    · subst hsp
      exact memWrite_getElem?_of_outside hw (hout.resolve_left fun hne => hne rfl)
    · rw [State.readByte, State.readByte, hother sp' hsp]

/-! ### Requests and scripts -/

/-- R211: a well-formed request is served, and the capacities stay. -/
theorem serve_of_wf {q : Request} {s : State} (hq : q.wf s.caps = true) : ∃ t, serve q s = some t ∧ t.caps = s.caps := by
  obtain ⟨v, r, hx, _⟩ :=
    everyOperationEndsAndTouchesOnlyItsOwn (requestOp q) { s with req := requestOperands q s.req }
  exact ⟨_, serve_eq_some.2 ⟨hq, hx⟩, rfl⟩

/-- Settles O59, by induction on the script: each request finds the capacities it is well formed for. -/
theorem wellFormedScriptsRunToTheirEnd : Obligations.WellFormedScriptsRunToTheirEnd := by
  intro qs
  induction qs with
  | nil => exact fun s _ => ⟨[], s, rfl, rfl, rfl⟩
  | cons q qs ih =>
    intro s hwf
    obtain ⟨u, hu, hcaps⟩ := serve_of_wf (hwf q (List.mem_cons_self ..))
    obtain ⟨rs, t, hrun, hlen, htcaps⟩ := ih u fun q' hq' => hcaps ▸ hwf q' (List.mem_cons_of_mem _ hq')
    exact ⟨u.resp :: rs, t, runScript_cons_eq_some.2 ⟨u, rs, hu, hrun, rfl⟩, congrArg (· + 1) hlen, htcaps.trans hcaps⟩

/-- A reserved operation consumes nothing and reads nothing. -/
theorem reservedOps_operands {i : Instr} (hi : i ∈ reservedOps) {s s' : State} (hc : s.caps = s'.caps) :
    consumes i = false ∧ agreeOnOperands i s s' := by
  cases i with
  | reserved0 | reservedA | reservedB | reservedC | reservedD | reservedE | reservedF => exact ⟨rfl, hc, trivial⟩
  | _ => exact absurd hi (by decide)

theorem consumes_requestOp {c : Caps} {q : Request} (hq : q.wf c = true) :
    consumes (requestOp q) = requestConsumes q := by
  cases q with
  | illegal op => exact (reservedOps_operands (requestOp_illegal_mem hq) (s := State.reset) rfl).1
  | _ => rfl

/-- Whatever stood in the operand registers, a loaded request gives its operation the same operands. -/
theorem agreeOnOperands_requestOperands {q : Request} {s s' : State} (hq : q.wf s.caps = true) (hc : s.caps = s'.caps)
    (hid : requestConsumes q = true → s.ID = s'.ID) :
    agreeOnOperands (requestOp q) { s with req := requestOperands q s.req }
      { s' with req := requestOperands q s'.req } := by
  cases q with
  | sum8 _ | xor8 _ | adec _ | esc _ | unesc _ | bdec _ => exact ⟨hc, rfl⟩
  | idnext => exact ⟨hc, hid rfl⟩
  | aenc _ => exact ⟨hc, hid rfl, rfl⟩
  | benc _ _ _ => exact ⟨hc, rfl, rfl, rfl⟩
  | illegal op => exact (reservedOps_operands (requestOp_illegal_mem hq) hc).2

/-- Settles O47: the operands are the request's own, so O45 makes the two answers equal. -/
theorem responsesAreAFunctionOfRequestAndId : Obligations.ResponsesAreAFunctionOfRequestAndId := by
  intro q s s' t hc hid h
  obtain ⟨hq, hx⟩ := serve_eq_some.1 h
  have hq' : q.wf s'.caps = true := hc ▸ hq
  obtain ⟨t', ht', _⟩ := serve_of_wf hq'
  obtain ⟨_, hx'⟩ := serve_eq_some.1 ht'
  obtain ⟨hresp, hnext⟩ :=
    responsesDependOnlyOnNamedOperands _ _ _ _ _ (agreeOnOperands_requestOperands hq hc hid) hx hx'
  rw [consumes_requestOp hq] at hnext
  refine ⟨t', ht', hresp.symm, fun hcons => (hnext hcons).symm, fun hno => ?_⟩
  obtain ⟨r, hr⟩ := exec_of_not_consumes ((consumes_requestOp hq).trans hno) { s' with req := requestOperands q s'.req }
  cases next_inj (hr.symm.trans hx')
  rfl

/-! ### Length registers -/

/-- A table element's length register counts it. -/
theorem reg32_getD_toNat {r : WideReg} {L : List Bytes} {i : Nat} {b : Bytes} (hb : b.length < 2 ^ 32)
    (h : L[i]? = some b) : (reg32 r (L.getD i []).length).toNat = b.length := by
  rw [List.getD_eq_getElem?_getD, h]
  exact reg32_toNat hb

/-- R165: the hexadecimal form has two characters for each byte of the frame; without a frame both are empty. -/
theorem benc_OUTHEX_length {s t : State} (h : exec .benc s = .next t) :
    t.resp.OUTHEX.length = 2 * t.resp.OUT.length := by
  rcases resp_cases h with ⟨e, _, hr⟩ | hr
  · rw [hr]
    rfl
  · generalize t.resp = r at hr
    cases hr
    exact hexstr_length _

/-- Settles O60. -/
theorem lengthRegistersCountTheirBuffers : Obligations.LengthRegistersCountTheirBuffers := by
  intro s
  refine ⟨reg32_toNat, reg32_toNat, reg32_toNat, reg32_toNat, reg32_toNat, reg32_toNat, reg32_toNat, fun i b hb =>
    ⟨reg32_getD_toNat hb, reg32_getD_toNat hb, reg32_getD_toNat hb, reg32_getD_toNat hb⟩, fun t h hlt => ?_⟩
  have hhex := benc_OUTHEX_length h
  rw [State.HEXLEN, State.OUTLEN, reg32_toNat (by omega), reg32_toNat (by omega), hhex]

end Sys2Proof.Machine

/-! SUPPORT. 40_checksum.md R104: both checksums over permutations and over one replaced byte. -/

namespace Sys2Proof.Machine

open Sys2Proof.Claims

/-- The byte sum is fixed by its value. -/
theorem isByteSum_iff {c : Byte} {s : Bytes} : IsByteSum c s ↔ c = sum8 s :=
  ⟨fun h => BitVec.eq_of_toNat_eq (h.trans (sum8_toNat s).symm), fun h => h ▸ isByteSum_sum8 s⟩

/-- The exclusive or is fixed by its eight bits. -/
theorem isByteXor_iff {c : Byte} {s : Bytes} : IsByteXor c s ↔ c = xor8 s :=
  ⟨fun h => BitVec.eq_of_getLsbD_eq fun k hk => (h k hk).trans (getLsbD_xor8 s k).symm, fun h => h ▸ isByteXor_xor8 s⟩

theorem sum8_perm {s s' : Bytes} (h : s.Perm s') : sum8 s = sum8 s' := by
  induction h with
  | nil => rfl
  | cons x _ ih => rw [sum8_cons, sum8_cons, ih]
  | swap x y l => simp only [sum8_cons, ← BitVec.add_assoc, BitVec.add_comm y x]
  | trans _ _ ih ih' => exact ih.trans ih'

theorem xor8_perm {s s' : Bytes} (h : s.Perm s') : xor8 s = xor8 s' := by
  induction h with
  | nil => rfl
  | cons x _ ih => rw [xor8_cons, xor8_cons, ih]
  | swap x y l => simp only [xor8_cons, ← BitVec.xor_assoc, BitVec.xor_comm y x]
  | trans _ _ ih ih' => exact ih.trans ih'

/-- Both operations are cancellative, so a replaced byte shows. -/
theorem sum8_replace_ne {x y : Byte} (h : x ≠ y) (p q : Bytes) : sum8 (p ++ y :: q) ≠ sum8 (p ++ x :: q) := by
  rw [sum8_append, sum8_append, sum8_cons, sum8_cons]
  intro e
  exact h (add_right_cancel (add_left_cancel e)).symm

theorem xor8_replace_ne {x y : Byte} (h : x ≠ y) (p q : Bytes) : xor8 (p ++ y :: q) ≠ xor8 (p ++ x :: q) := by
  rw [xor8_append, xor8_append, xor8_cons, xor8_cons]
  intro e
  exact h ((BitVec.xor_left_inj _).1 ((BitVec.xor_right_inj _).1 e)).symm

/-- Settles O6: the response of either operation is made of the checksum of `IN` alone. -/
theorem checksumsIgnoreOrderAndSeeOneByte : Obligations.ChecksumsIgnoreOrderAndSeeOneByte := by
  rintro i s (rfl | rfl)
  · refine ⟨fun b t t' hb ht ht' => ?_, fun p q x y t t' hin hxy ht ht' => ?_⟩ <;> cases ht <;> cases ht'
    · rw [inBytes, inBytes, sum8_perm hb]
    · rw [inBytes, inBytes, hin]
      exact sum8_replace_ne hxy p q
  · refine ⟨fun b t t' hb ht ht' => ?_, fun p q x y t t' hin hxy ht ht' => ?_⟩ <;> cases ht <;> cases ht'
    · rw [inBytes, inBytes, xor8_perm hb]
    · rw [inBytes, inBytes, hin]
      exact xor8_replace_ne hxy p q

end Sys2Proof.Machine

/-! SUPPORT. 43_escape.md R150 to R154: the scan of UNESC in the words of the spec, and the two transforms as inverses. -/

namespace Sys2Proof.Machine

open Sys2Proof.Claims

/-- A fatal result as R204 describes it: the register takes `n` where it fits. -/
theorem endsFatally {i : Instr} {s : State} {e : Fatal} {n : Nat} (hinfo : e.info = reg32 .INFO n)
    (h : exec i s = .next { s with resp := fatalResponse e }) : EndsFatally i s e.code n :=
  ⟨e.info, fun hn => hinfo ▸ reg32_toNat hn, h⟩

/-! ### The scan (R152) -/

/-- A byte that opens no pair is passed on. -/
theorem unescapeFrom_cons_plain (i : Nat) {b : Byte} (hb : b ≠ 0x7D) (r : Bytes) :
    unescapeFrom i (b :: r) = (unescapeFrom (i + 1) r).map (b :: ·) := by
  cases r with
  | nil => exact if_neg hb
  | cons c r => rw [unescapeFrom, if_neg hb]

/-- Whole codes are scanned, and the scan goes on behind them. -/
theorem unescapeFrom_append {p o : Bytes} (h : Unescapes p o) (i : Nat) (r : Bytes) :
    unescapeFrom i (p ++ r) = (unescapeFrom (i + p.length) r).map (o ++ ·) := by
  have hmap (x : Byte) (o : Bytes) (e : Except Nat Bytes) : (e.map (o ++ ·)).map (x :: ·) = e.map (x :: o ++ ·) := by
    cases e <;> rfl
  induction h generalizing i with
  | nil => cases hr : unescapeFrom i r <;> simp [hr, Except.map]
  | plain b p o hb _ ih =>
    rw [List.cons_append, unescapeFrom_cons_plain i hb, ih, hmap, List.length_cons, Nat.add_assoc, Nat.add_comm 1]
  | flag p o _ ih =>
    rw [List.cons_append, List.cons_append, unescapeFrom, if_pos rfl, if_pos rfl, ih, hmap, List.length_cons,
      List.length_cons, Nat.add_assoc, Nat.add_comm 2]
  | control p o _ ih =>
    rw [List.cons_append, List.cons_append, unescapeFrom, if_pos rfl, if_neg (by decide), if_pos rfl, ih, hmap,
      List.length_cons, List.length_cons, Nat.add_assoc, Nat.add_comm 2]

theorem unescape_of_unescapes {r o : Bytes} (h : Unescapes r o) : unescape r = .ok o := by
  have happ := unescapeFrom_append h 0 []
  simpa [unescape, unescapeFrom, Except.map] using happ

/-- A `0x7D` that opens no pair ends the scan. -/
theorem unescapeFrom_bad {q : Bytes} (h1 : q.head? ≠ some 0x01) (h2 : q.head? ≠ some 0x02) (i : Nat) :
    unescapeFrom i (0x7D :: q) = .error i := by
  cases q with
  | nil => rfl
  | cons c q =>
    rw [unescapeFrom, if_pos rfl, if_neg fun hc => h2 (congrArg some hc), if_neg fun hc => h1 (congrArg some hc)]

theorem unescape_of_stopsAt {r : Bytes} {i : Nat} (h : StopsAt r i) : unescape r = .error i := by
  obtain ⟨p, q, o, rfl, rfl, hp, h1, h2⟩ := h
  rw [unescape, unescapeFrom_append hp, unescapeFrom_bad h1 h2, Nat.zero_add]
  rfl

/-- What the scan finds in a string it finds behind one more whole code. -/
theorem scan_cons_code {c r : Bytes} (hc : ∀ p u, Unescapes p u → ∃ v, Unescapes (c ++ p) v)
    (h : (∃ o, Unescapes r o) ∨ ∃ i, StopsAt r i) : (∃ o, Unescapes (c ++ r) o) ∨ ∃ i, StopsAt (c ++ r) i := by
  rcases h with ⟨o, ho⟩ | ⟨_, p, q, u, rfl, _, hp, h1, h2⟩
  · exact .inl (hc r o ho)
  · obtain ⟨v, hv⟩ := hc p u hp
    exact .inr ⟨_, c ++ p, q, v, (List.append_assoc ..).symm, rfl, hv, h1, h2⟩

/-- R152: every string is whole codes, or its scan stops. -/
theorem unescapes_or_stopsAt (r : Bytes) : (∃ o, Unescapes r o) ∨ ∃ i, StopsAt r i := by
  match r with
  | [] => exact .inl ⟨[], .nil⟩
  | b :: r =>
    by_cases hb : b = 0x7D
    · subst hb
      by_cases h1 : r.head? = some 0x01
      · obtain ⟨q, rfl⟩ := List.head?_eq_some_iff.1 h1
        exact scan_cons_code (c := [0x7D, 0x01]) (fun p u hp => ⟨_, .control p u hp⟩) (unescapes_or_stopsAt q)
      by_cases h2 : r.head? = some 0x02
      · obtain ⟨q, rfl⟩ := List.head?_eq_some_iff.1 h2
        exact scan_cons_code (c := [0x7D, 0x02]) (fun p u hp => ⟨_, .flag p u hp⟩) (unescapes_or_stopsAt q)
      · exact .inr ⟨0, [], r, [], rfl, rfl, .nil, h1, h2⟩
    · exact scan_cons_code (c := [b]) (fun p u hp => ⟨_, .plain b p u hb hp⟩) (unescapes_or_stopsAt r)
termination_by r.length

/-- R153: where the string the input stands for fits `OUT`, UNESC answers it. -/
theorem exec_unesc_of_unescapes {s : State} {o : Bytes} (h : Unescapes s.req.IN o) (hfits : o.length ≤ s.caps.maxOut) :
    exec .unesc s = .next { s with resp := { Response.cleared with OUT := o } } := by
  rcases execUnesc_cases s with ⟨_, hu, _⟩ | ⟨_, hu, hover, _⟩ | ⟨_, hu, _, hx⟩ <;>
    cases (unescape_of_unescapes h).symm.trans hu
  · exact absurd hfits (Nat.not_le_of_lt hover)
  · exact hx

/-- R153: where the scan stops, UNESC ends at that offset. -/
theorem exec_unesc_of_stopsAt {s : State} {i : Nat} (h : StopsAt s.req.IN i) : EndsFatally .unesc s 0x06 i := by
  rcases execUnesc_cases s with ⟨_, hu, hx⟩ | ⟨_, hu, _⟩ | ⟨_, hu, _⟩ <;>
    cases (unescape_of_stopsAt h).symm.trans hu
  exact endsFatally (i := .unesc) (e := .unescapedControlByte i) rfl hx

/-- Settles O28: of the two readings every input has, each decides which end UNESC takes. -/
theorem unescAnswersOrPointsAtTheBadByte : Obligations.UnescAnswersOrPointsAtTheBadByte :=
  ⟨by decide, fun s => ⟨unescapes_or_stopsAt s.req.IN, fun _ => exec_unesc_of_unescapes, fun _ => exec_unesc_of_stopsAt⟩⟩

/-! ### The two transforms undo each other (R154) -/

theorem unescapes_escape (s : Bytes) : Unescapes (escape s) s := by
  induction s with
  | nil => exact .nil
  | cons b s ih =>
    rw [escape, escByte]
    split
    · subst b
      exact .flag _ _ ih
    · split
      · subst b
        exact .control _ _ ih
      · exact .plain _ _ _ ‹_› ih

/-- ESC undoes UNESC where the input holds no flag byte. -/
theorem escape_of_unescapes {r o : Bytes} (h : Unescapes r o) (hflag : 0x7E ∉ r) : escape o = r := by
  induction h with
  | nil => rfl
  | plain b r o hb _ ih =>
    obtain ⟨hne, hr⟩ := not_or.1 (List.mem_cons.not.1 hflag)
    rw [escape, escByte, if_neg (Ne.symm hne), if_neg hb, ih hr]
    rfl
  | flag r o _ ih | control r o _ ih =>
    have hr : 0x7E ∉ r := fun hmem => hflag (List.mem_cons_of_mem _ (List.mem_cons_of_mem _ hmem))
    rw [escape, ih hr]
    rfl

theorem unescapes_of_unescape {r o : Bytes} (h : unescape r = .ok o) : Unescapes r o := by
  rcases unescapes_or_stopsAt r with ⟨o', ho⟩ | ⟨i, hi⟩
  · cases (unescape_of_unescapes ho).symm.trans h
    exact ho
  · cases (unescape_of_stopsAt hi).symm.trans h

theorem Answers.esc_OUT {s : State} {r : Response} (h : Answers s .esc r) : r.OUT = escape s.req.IN := by
  cases h; rfl

theorem Answers.unesc_OUT {s : State} {r : Response} (h : Answers s .unesc r) : Unescapes s.req.IN r.OUT := by
  cases h with
  | unesc o hu => exact unescapes_of_unescape hu

/-- Settles O30: the answer of either operation is what the other takes back to the input. -/
theorem escapeAndUnescapeRoundTrip : Obligations.EscapeAndUnescapeRoundTrip := by
  refine ⟨fun s t h hok hfits => ?_, fun s t h hok hflag hfits => ?_⟩
  · have hback : Unescapes (feedBack t).req.IN s.req.IN := by
      show Unescapes t.resp.OUT s.req.IN
      rw [(answers_of_ok h hok).esc_OUT]
      exact unescapes_escape s.req.IN
    exact exec_unesc_of_unescapes hback ((exec_frame h).2 ▸ hfits)
  · have hback : escape (feedBack t).req.IN = s.req.IN :=
      escape_of_unescapes (answers_of_ok h hok).unesc_OUT hflag
    have hx := exec_esc_of_fits (s := feedBack t) (by rw [hback]; exact (exec_frame h).2 ▸ hfits)
    rwa [hback] at hx

/-! ### The form of the escaped string (R154) -/

/-- A flag byte never leaves ESC: its code is made of other bytes. -/
theorem not_mem_escape (s : Bytes) : 0x7E ∉ escape s := by
  rw [escape_eq_flatMap, List.mem_flatMap]
  rintro ⟨b, _, hb⟩
  rw [escByte] at hb
  split at hb
  · exact absurd hb (by decide)
  · split at hb
    · exact absurd hb (by decide)
    · exact absurd (List.mem_singleton.1 hb).symm ‹_›

/-- In whole codes every `0x7D` opens a pair. -/
theorem head?_of_unescapes {r o : Bytes} (h : Unescapes r o) :
    ∀ p q, r = p ++ 0x7D :: q → q.head? = some 0x01 ∨ q.head? = some 0x02 := by
  induction h with
  | nil => intro p q hr; cases p <;> cases hr
  | plain b r o hb _ ih =>
    intro p q hr
    cases p with
    | nil => cases hr; exact absurd rfl hb
    | cons _ p => exact ih p q (List.cons.inj hr).2
  | flag r o _ ih | control r o _ ih =>
    intro p q hr
    match p with
    | [] => cases hr; simp
    | [_] => cases hr
    | _ :: _ :: p => exact ih p q (List.cons.inj (List.cons.inj hr).2).2

/-- One byte more for each byte that is escaped. -/
theorem escape_length (s : Bytes) : (escape s).length = s.length + s.count 0x7E + s.count 0x7D := by
  induction s with
  | nil => rfl
  | cons b s ih =>
    rw [escape, List.length_append, ih, escByte, List.length_cons]
    by_cases hf : b = 0x7E
    · rw [if_pos hf, hf, List.count_cons_self, List.count_cons_of_ne (by decide), List.length_cons, List.length_singleton]
      omega
    by_cases hc : b = 0x7D
    · rw [if_neg hf, if_pos hc, hc, List.count_cons_self, List.count_cons_of_ne (by decide), List.length_cons,
        List.length_singleton]
      omega
    · rw [if_neg hf, if_neg hc, List.count_cons_of_ne hf, List.count_cons_of_ne hc, List.length_singleton]
      omega

/-- Settles O29. -/
theorem escOutputIsFreeOfFlagBytes : Obligations.EscOutputIsFreeOfFlagBytes := by
  intro s t h hok
  rw [(answers_of_ok h hok).esc_OUT]
  exact ⟨not_mem_escape _, head?_of_unescapes (unescapes_escape _), escape_length _⟩

end Sys2Proof.Machine

/-! SUPPORT. 42_ascii_frame.md R121 to R125, 30_encoding.md R63 to R70: the decimal rendering and the frame of AENC in the
words of the spec. -/

namespace Sys2Proof.Machine

open Sys2Proof.Config Sys2Proof.Claims

/-! ### The decimal rendering (R8) -/

/-- The number whose decimal digits are given, as the spec's notions write it. -/
def digitsValue (ds : List Nat) : Nat := ds.foldl (fun v d => 10 * v + d) 0

theorem digitsValue_append_digit (ds : List Nat) (d : Nat) : digitsValue (ds ++ [d]) = 10 * digitsValue ds + d := by
  simp [digitsValue]

/-- Digits without a leading zero are not the digits of 0. -/
theorem digitsValue_pos {ds : List Nat} (hne : ds ≠ []) (hhead : ds.head? ≠ some 0) : 0 < digitsValue ds := by
  induction ds using List.reverseRecOn with
  | nil => exact absurd rfl hne
  | append_singleton ds d ih =>
    rw [digitsValue_append_digit]
    by_cases hds : ds = []
    · subst hds
      have hd : d ≠ 0 := fun e => hhead (by rw [e]; rfl)
      omega
    · rw [List.head?_append_of_ne_nil _ hds] at hhead
      have := ih hds hhead
      omega

/-- The digits without a leading zero are those of `dec`. -/
theorem dec_digitsValue {ds : List Nat} (hne : ds ≠ []) (hlt : ∀ d ∈ ds, d < 10)
    (hhead : ds.head? = some 0 → ds = [0]) : dec (digitsValue ds) = ds.map ascii := by
  induction ds using List.reverseRecOn with
  | nil => exact absurd rfl hne
  | append_singleton ds d ih =>
    have hd : d < 10 := hlt d (by simp)
    rw [digitsValue_append_digit, List.map_append]
    by_cases hds : ds = []
    · subst hds
      rw [show 10 * digitsValue [] + d = d from Nat.zero_add d, dec_eq, if_pos hd]
      rfl
    · rw [List.head?_append_of_ne_nil _ hds] at hhead
      have hhead' : ds.head? ≠ some 0 := fun h0 => hds (by simpa using congrArg List.length (hhead h0))
      have hpos := digitsValue_pos hds hhead'
      rw [dec_eq, if_neg (by omega), show (10 * digitsValue ds + d) / 10 = digitsValue ds by omega,
        show (10 * digitsValue ds + d) % 10 = d by omega,
        ih hds (fun x hx => hlt x (by simp [hx])) (fun h0 => absurd h0 hhead')]
      rfl

theorem isDecimal_dec (n : Nat) : IsDecimal (dec n) n := by
  induction n using Nat.strongRecOn with
  | _ n ih =>
    rw [dec_eq]
    split
    · exact ⟨[n], by simp, by simpa, fun h => by simp_all, by simp, rfl⟩
    · obtain ⟨ds, hne, hlt, hhead, hv, htext⟩ := ih (n / 10) (by omega)
      refine ⟨ds ++ [n % 10], by simp, ?_, fun h0 => ?_, ?_, by rw [htext]; simp [ascii, decDigit]⟩
      · intro d hd
        rcases List.mem_append.1 hd with hd | hd
        · exact hlt d hd
        · rw [List.mem_singleton.1 hd]
          omega
      · rw [List.head?_append_of_ne_nil _ hne] at h0
        rw [hhead h0] at hv
        have : n / 10 = 0 := hv.symm
        omega
      · have := digitsValue_append_digit ds (n % 10)
        rw [digitsValue, digitsValue, hv] at this
        omega

/-- A number has one decimal rendering. -/
theorem isDecimal_iff {text : Bytes} {n : Nat} : IsDecimal text n ↔ text = dec n := by
  constructor
  · rintro ⟨ds, hne, hlt, hhead, rfl, rfl⟩
    exact (dec_digitsValue hne hlt hhead).symm
  · rintro rfl
    exact isDecimal_dec n

/-! ### The frame (R63 to R68) -/

theorem bodyOf_eq_asciiBody (fields : List Bytes) : bodyOf fields = asciiBody fields := by
  rw [bodyOf, asciiBody, join_eq_intercalate]
  rfl

theorem asciiCovered_eq (id : Byte) (fields : List Bytes) :
    asciiCovered id fields = [0x24, 0x24, id] ++ dec (asciiTotal fields) ++ asciiBody fields := rfl

/-- The model's frame is the only frame of the fields. -/
theorem isAsciiFrame_iff {id : Byte} {fields : List Bytes} {frame : Bytes} {ck : Byte} :
    IsAsciiFrame id fields frame ck ↔ frame = asciiFrame id fields ∧ ck = sum8 (asciiCovered id fields) := by
  unfold IsAsciiFrame
  simp only [bodyOf_eq_asciiBody, isDecimal_iff, isByteSum_iff, ← hex2_eq_hexPair, asciiFrame]
  constructor
  · rintro ⟨len, rfl, rfl, rfl⟩
    exact ⟨rfl, rfl⟩
  · rintro ⟨rfl, rfl⟩
    exact ⟨_, rfl, rfl, rfl⟩

/-- R121: where the frame fits `OUT`, AENC answers it and advances `ID`. -/
theorem exec_aenc_of_fits {s : State} (h : (asciiFrame s.ID s.req.FLD).length ≤ s.caps.maxOut) :
    exec .aenc s = .next { s with
      ID := adv s.ID
      resp := { Response.cleared with
        OUT := asciiFrame s.ID s.req.FLD
        RB := s.ID
        CKC := sum8 (asciiCovered s.ID s.req.FLD)
        TOTAL := reg32 .TOTAL (asciiTotal s.req.FLD) } } := by
  rcases execAenc_cases s with ⟨hover, _⟩ | ⟨_, hx⟩
  · exact absurd h (Nat.not_le_of_lt hover)
  · exact hx

/-- R122: where it does not, AENC reports its length and leaves `ID`. -/
theorem exec_aenc_of_overflow {s : State} (h : s.caps.maxOut < (asciiFrame s.ID s.req.FLD).length) :
    EndsFatally .aenc s 0x0B (asciiFrame s.ID s.req.FLD).length := by
  rcases execAenc_cases s with ⟨_, hx⟩ | ⟨hfits, _⟩
  · exact endsFatally (i := .aenc) (e := .capacityExceeded _) rfl hx
  · exact absurd h (Nat.not_lt_of_le hfits)

/-- Settles O12: there is just one frame, the model's, and its length decides which end AENC takes. -/
theorem aencBuildsTheFrameAndAdvances : Obligations.AencBuildsTheFrameAndAdvances := by
  refine ⟨by decide, fun s => ⟨⟨_, _, isAsciiFrame_iff.2 ⟨rfl, rfl⟩⟩, fun frame ck hframe => ?_⟩⟩
  obtain ⟨rfl, rfl⟩ := isAsciiFrame_iff.1 hframe
  refine ⟨fun hfits => ?_, exec_aenc_of_overflow⟩
  rw [bodyOf_eq_asciiBody]
  exact ⟨adv s.ID, _, nextInCycle_adv s.ID, reg32_toNat, exec_aenc_of_fits hfits⟩

/-! ### The shape of the answered frame (R67, R125) -/

/-- What an AENC without a fatal result has answered. -/
theorem aenc_answer {s : State} {r : Response} (h : Answers s .aenc r) :
    r.OUT = asciiFrame s.ID s.req.FLD ∧ r.RB = s.ID ∧ r.CKC = sum8 (asciiCovered s.ID s.req.FLD) ∧
    r.TOTAL = reg32 .TOTAL (asciiTotal s.req.FLD) := by
  cases h; exact ⟨rfl, rfl, rfl, rfl⟩

/-- The length number of a frame that is itself below `2^32` bytes is in its register. -/
theorem asciiTotal_toNat {id : Byte} {fields : List Bytes} (h : (asciiFrame id fields).length < 2 ^ 32) :
    (reg32 .TOTAL (asciiTotal fields)).toNat = asciiTotal fields := by
  rw [asciiFrame_length] at h
  exact reg32_toNat (by omega)

/-- Separators stand between neighbours only. -/
theorem join_length {c : Byte} {L : List Bytes} (h : L ≠ []) :
    (join c L).length + 1 = L.length + (L.map List.length).sum := by
  induction L with
  | nil => exact absurd rfl h
  | cons x L ih =>
    by_cases hL : L = []
    · subst hL
      simp [join]; omega
    · have := ih hL
      rw [join_cons hL]
      simp; omega

/-- Settles O13. -/
theorem aencFrameHasItsShape : Obligations.AencFrameHasItsShape := by
  intro s t h hok hlen
  obtain ⟨hout, _, hckc, htotal⟩ := aenc_answer (answers_of_ok h hok)
  rw [hout] at hlen ⊢
  rw [htotal, asciiTotal_toNat hlen, hckc, ← hex2_eq_hexPair]
  have hbody := asciiBody_length s.req.FLD
  refine ⟨dec (asciiTotal s.req.FLD), asciiBody s.req.FLD ++ hex2 (sum8 (asciiCovered s.ID s.req.FLD)) ++ [0x0D, 0x0A],
    isDecimal_dec _, ?_, ?_, ?_, rfl, ?_, fun hne => ?_⟩
  · simp [asciiFrame, asciiCovered_eq]
  · simp [asciiTotal]
  · simp; omega
  · exact ⟨0x2C :: join 0x2C s.req.FLD ++ [0x2C], by simp [asciiBody]⟩
  · have := join_length (c := 0x2C) hne
    simp; omega

/-! ### The standard profile (R63) -/

/-- The wire form is the frame of the profile's fields, its separators written out. -/
theorem asciiFrame_standardFields (id : Byte) (p : StandardProfile) : asciiFrame id (standardFields p) =
    wireForm id (dec (asciiTotal (standardFields p))) p (hexPair (sum8 (asciiCovered id (standardFields p)))) := by
  rw [← hex2_eq_hexPair, asciiFrame, asciiCovered_eq]
  generalize dec (asciiTotal (standardFields p)) = len
  generalize hex2 _ = cc
  simp only [asciiBody, standardFields, join, wireForm, List.flatten_cons, List.flatten_nil, List.append_assoc,
    List.cons_append, List.nil_append, List.append_nil]

/-- Settles O14. -/
theorem standardProfileFramesHaveTheWireForm : Obligations.StandardProfileFramesHaveTheWireForm := by
  intro p s hwf
  obtain ⟨t, ht, _⟩ := serve_of_wf hwf
  obtain ⟨_, hx⟩ := serve_eq_some.1 ht
  exact ⟨t, ht, fun hok => ⟨asciiTotal (standardFields p), _, sum8 (asciiCovered s.ID (standardFields p)), isDecimal_dec _,
    (aenc_answer (answers_of_ok hx hok)).1.trans (asciiFrame_standardFields s.ID p)⟩⟩

end Sys2Proof.Machine

/-! SUPPORT. 42_ascii_frame.md R130 to R139: ADEC. A reading of its input (`AdecReads`) fixes what step 1 receives, so the
answer is the response of those parts; each obligation then speaks of one component of that response. -/

namespace Sys2Proof.Machine

open Sys2Proof.Config Sys2Proof.Claims

/-! ### What step 1 receives from a reading (R131, R132) -/

/-- What step 1 finds in a text of these parts and this checksum text. -/
def receivedOf (parts : List Bytes) (ck : Option Bytes) : Received where
  found := ck.isSome
  cktxt := ck.getD []
  cov := if ck.isSome then join 0x2C parts ++ [0x2A] else []
  ftxt := join 0x2C parts

/-- The text of a reading without its CRLF. -/
theorem stripCrlf_of_readsAs {b : Bytes} {parts : List Bytes} {ck : Option Bytes} {crlf : Bool}
    (h : ReadsAs b parts ck crlf) : stripCrlf b = join 0x2C parts ++ starText ck := by
  rw [join_eq_intercalate]
  cases crlf with
  | true => rw [h.text]; exact stripCrlf_append _
  | false => rw [stripCrlf_of_not_suffix (h.oneCrlf rfl), h.text]; exact List.append_nil _

/-- A byte of a join is a separator or stands in a part. -/
theorem mem_of_mem_join {c b : Byte} {L : List Bytes} (h : b ∈ join c L) : b = c ∨ ∃ p ∈ L, b ∈ p := by
  induction L with
  | nil => cases h
  | cons x L ih =>
    by_cases hL : L = []
    · subst hL
      exact .inr ⟨x, List.mem_singleton_self x, h⟩
    · rw [join_cons hL, List.mem_append, List.mem_cons] at h
      rcases h with h | rfl | h
      · exact .inr ⟨x, List.mem_cons_self .., h⟩
      · exact .inl rfl
      · exact (ih h).imp_right fun ⟨p, hp, hb⟩ => ⟨p, List.mem_cons_of_mem _ hp, hb⟩

/-- A byte of a part stands in the join. -/
theorem mem_join_of_mem {c b : Byte} {L : List Bytes} {p : Bytes} (hp : p ∈ L) (hb : b ∈ p) : b ∈ join c L := by
  induction L with
  | nil => cases hp
  | cons x L ih =>
    by_cases hL : L = []
    · subst hL
      cases List.mem_singleton.1 hp
      exact hb
    · rw [join_cons hL, List.mem_append, List.mem_cons]
      rcases List.mem_cons.1 hp with rfl | hp
      · exact .inl hb
      · exact .inr (.inr (ih hp))

theorem receive_of_readsAs {b : Bytes} {parts : List Bytes} {ck : Option Bytes} {crlf : Bool}
    (h : ReadsAs b parts ck crlf) : receive b = receivedOf parts ck := by
  have hstrip := stripCrlf_of_readsAs h
  have hstar := h.lastStar
  cases ck with
  | some t => exact receive_of_star hstrip hstar
  | none =>
    have hno : 0x2A ∉ stripCrlf b := by
      rw [hstrip, starText, List.append_nil]
      intro hmem
      rcases mem_of_mem_join hmem with he | ⟨p, hp, hb⟩
      · exact absurd he (by decide)
      · exact hstar p hp hb
    rw [receive_of_no_star hno, hstrip, starText, List.append_nil]
    rfl

theorem split_receivedOf {b : Bytes} {parts : List Bytes} {ck : Option Bytes} {crlf : Bool}
    (h : ReadsAs b parts ck crlf) : split 0x2C (receivedOf parts ck).ftxt = parts := split_join h.nonempty h.noComma

/-- R131: the parts of the field text and the text after the last `*` are a reading. -/
theorem readsAs_of_strip {b core : Bytes} {crlf : Bool} (hb : b = core ++ if crlf then [0x0D, 0x0A] else [])
    (hcrlf : crlf = false → ¬ [0x0D, 0x0A] <:+ b) : ∃ parts ck, ReadsAs b parts ck crlf := by
  have hjoin (p : Bytes) : List.intercalate [0x2C] (split 0x2C p) = p := by rw [← join_eq_intercalate, join_split]
  rcases lastStar_cases core with hno | ⟨p, q, rfl, hq⟩
  · refine ⟨split 0x2C core, none, ?_, split_ne_nil _ _, fun _ => not_mem_of_mem_split, fun p hp hmem => hno ?_, hcrlf⟩
    · rw [asciiText, hjoin, starText, List.append_nil, hb]
    · rw [← join_split 0x2C core]
      exact mem_join_of_mem hp hmem
  · refine ⟨split 0x2C p, some q, ?_, split_ne_nil _ _, fun _ => not_mem_of_mem_split, hq, hcrlf⟩
    rw [asciiText, hjoin, starText, hb]

theorem exists_adecReads (s : State) : ∃ parts ck, AdecReads s parts ck := by
  by_cases h : [0x0D, 0x0A] <:+ s.req.IN
  · obtain ⟨core, hcore⟩ := h
    obtain ⟨parts, ck, hr⟩ := readsAs_of_strip (crlf := true) hcore.symm nofun
    exact ⟨parts, ck, true, hr⟩
  · obtain ⟨parts, ck, hr⟩ := readsAs_of_strip (crlf := false) (List.append_nil s.req.IN).symm fun _ => h
    exact ⟨parts, ck, false, hr⟩

/-! ### The three ends of ADEC, by a reading (R130, R132) -/

section Ends

variable {s : State} {parts : List Bytes} {ck : Option Bytes}

/-- The ends of ADEC in terms of the parts of a reading. -/
theorem exec_adec_of_reads (h : AdecReads s parts ck) :
    (parts.length < 16 ∧ exec .adec s = .next { s with resp := fatalResponse (.tooFewFields parts.length) }) ∨
    (16 ≤ parts.length ∧ s.caps.maxPart < parts.length ∧
      exec .adec s = .next { s with resp := fatalResponse (.capacityExceeded parts.length) }) ∨
    (16 ≤ parts.length ∧ parts.length ≤ s.caps.maxPart ∧
      exec .adec s = .next { s with resp := asciiResponse (receivedOf parts ck) parts }) := by
  obtain ⟨crlf, hr⟩ := h
  have hcases := execAdec_cases s
  simp only [receive_of_readsAs hr, split_receivedOf hr] at hcases
  exact hcases

theorem exec_adec_of_accepts (h : AdecAccepts s parts ck) :
    exec .adec s = .next { s with resp := asciiResponse (receivedOf parts ck) parts } := by
  obtain ⟨hr, hmin, hmax⟩ := h
  rcases exec_adec_of_reads hr with ⟨hfew, _⟩ | ⟨_, hmany, _⟩ | ⟨_, _, hx⟩
  · exact absurd hmin (Nat.not_le_of_lt hfew)
  · exact absurd hmax (Nat.not_le_of_lt hmany)
  · exact hx

theorem exec_adec_of_few (h : AdecReads s parts ck) (hfew : parts.length < 16) :
    EndsFatally .adec s 0x01 parts.length := by
  rcases exec_adec_of_reads h with ⟨_, hx⟩ | ⟨hmin, _⟩ | ⟨hmin, _⟩
  · exact endsFatally (e := .tooFewFields _) rfl hx
  · exact absurd hfew (Nat.not_lt_of_le hmin)
  · exact absurd hfew (Nat.not_lt_of_le hmin)

theorem exec_adec_of_many (h : AdecReads s parts ck) (hmin : 16 ≤ parts.length) (hmany : s.caps.maxPart < parts.length) :
    EndsFatally .adec s 0x0B parts.length := by
  rcases exec_adec_of_reads h with ⟨hfew, _⟩ | ⟨_, _, hx⟩ | ⟨_, hmax, _⟩
  · exact absurd hmin (Nat.not_le_of_lt hfew)
  · exact endsFatally (e := .capacityExceeded _) rfl hx
  · exact absurd hmany (Nat.not_lt_of_le hmax)

end Ends

/-- Settles O15. -/
theorem adecReportsThePartsRaw : Obligations.AdecReportsThePartsRaw :=
  ⟨by decide, fun s => ⟨exists_adecReads s, fun _ _ h =>
    ⟨_, exec_adec_of_accepts h, rfl, rfl, rfl, rfl, rfl, rfl, rfl, rfl, rfl, rfl, rfl, rfl, rfl, rfl⟩⟩⟩

/-- Settles O16. -/
theorem adecRefusesTooFewOrTooManyParts : Obligations.AdecRefusesTooFewOrTooManyParts :=
  fun _ _ _ h => ⟨exec_adec_of_few h, exec_adec_of_many h⟩

/-! ### The flags of the answer -/

section Flags

variable (f : Received) (parts : List Bytes)

/-- The flags of the answer, bit by bit (R27). -/
theorem asciiResponse_flag_found : (asciiResponse f parts).FLAGS.getLsbD 0 = f.found :=
  (BitVec.getLsbD_eq_getElem (by decide)).trans (flags_ckFound (asciiConditions f parts))

theorem asciiResponse_flag_valid :
    (asciiResponse f parts).FLAGS.getLsbD 1 = (f.found && f.cktxt == hex2 (asciiChecksum f)) :=
  (BitVec.getLsbD_eq_getElem (by decide)).trans (flags_ckValid (asciiConditions f parts))

theorem asciiResponse_flag_mismatch : (asciiResponse f parts).FLAGS.getLsbD 2 =
    (f.found && !(f.found && f.cktxt == hex2 (asciiChecksum f))) :=
  (BitVec.getLsbD_eq_getElem (by decide)).trans (flags_ckMismatch (asciiConditions f parts))

theorem asciiResponse_flag_tsBad : (asciiResponse f parts).FLAGS.getLsbD 3 = (tsParse (parts.getD 6 [])).isNone :=
  (BitVec.getLsbD_eq_getElem (by decide)).trans (flags_tsBad (asciiConditions f parts))

theorem asciiResponse_flag_cellOk : (asciiResponse f parts).FLAGS.getLsbD 4 = (cellGroup parts).isSome :=
  (BitVec.getLsbD_eq_getElem (by decide)).trans (flags_cellOk (asciiConditions f parts))

theorem asciiResponse_flag_adOk : (asciiResponse f parts).FLAGS.getLsbD 5 = (adGroup parts).isSome :=
  (BitVec.getLsbD_eq_getElem (by decide)).trans (flags_adOk (asciiConditions f parts))

theorem asciiResponse_flag_hdrOk : (asciiResponse f parts).FLAGS.getLsbD 8 = (hdrParse (parts.getD 0 [])).isSome :=
  (BitVec.getLsbD_eq_getElem (by decide)).trans (flags_hdrOk (asciiConditions f parts))

end Flags

/-! ### The checksum verdict (R133) -/

theorem asciiChecksum_receivedOf (parts : List Bytes) (t : Bytes) :
    asciiChecksum (receivedOf parts (some t)) = sum8 (join 0x2C parts ++ [0x2A]) := rfl

/-- Settles O17. -/
theorem adecJudgesTheChecksum : Obligations.AdecJudgesTheChecksum := by
  intro s parts ck h
  refine ⟨_, exec_adec_of_accepts h, ?_, ?_⟩
  · rintro rfl
    exact ⟨asciiResponse_flag_found _ _, asciiResponse_flag_valid _ _, asciiResponse_flag_mismatch _ _, rfl, rfl⟩
  · rintro t rfl
    refine ⟨?_, rfl, asciiResponse_flag_found _ _, ?_, ?_⟩
    · rw [← join_eq_intercalate]
      exact isByteSum_sum8 _
    · rw [asciiResponse_flag_valid, ← hex2_eq_hexPair]
      exact Bool.beq_eq_decide_eq _ _
    · rw [asciiResponse_flag_mismatch, ← hex2_eq_hexPair, decide_not]
      exact congrArg (!·) (Bool.beq_eq_decide_eq _ _)

/-! ### The groups (R135, R136) -/

/-- The `|`-separated sub-parts are what the split gives. -/
theorem split_of_subParts {p : Bytes} {subs : List Bytes} (h : SubParts p subs) : split 0x7C p = subs := by
  obtain ⟨hne, hbar, rfl⟩ := h
  rw [← join_eq_intercalate, split_join hne hbar]

/-- A group of `n` sub-parts in part `index`, as values of its buffer and its flag. -/
theorem group_all_or_nothing {index n : Nat} {parts : List Bytes} :
    (parts.length ≤ index → (group index n parts).getD [] = [] ∧ (group index n parts).isSome = false) ∧
    (∀ p subs, parts[index]? = some p → SubParts p subs →
      (subs.length < n → (group index n parts).getD [] = [] ∧ (group index n parts).isSome = false) ∧
      (n ≤ subs.length → (group index n parts).getD [] = subs.take n ∧ (group index n parts).isSome = true)) := by
  refine ⟨fun h => by rw [group_of_absent h]; exact ⟨rfl, rfl⟩, fun p subs hp hsubs => ?_⟩
  rw [group_of_part hp, split_of_subParts hsubs]
  exact ⟨fun h => by rw [if_pos h]; exact ⟨rfl, rfl⟩, fun h => by rw [if_neg (Nat.not_lt_of_le h)]; exact ⟨rfl, rfl⟩⟩

/-- Settles O18: both groups are one function of the part's index and size. -/
theorem adecGroupsAreAllOrNothing : Obligations.AdecGroupsAreAllOrNothing := by
  intro s parts ck h
  obtain ⟨hcell, hcellPart⟩ := group_all_or_nothing (index := 16) (n := 4) (parts := parts)
  obtain ⟨had, hadPart⟩ := group_all_or_nothing (index := 18) (n := 5) (parts := parts)
  refine ⟨_, exec_adec_of_accepts h, ?_⟩
  rw [asciiResponse_flag_cellOk, asciiResponse_flag_adOk]
  exact ⟨hcell, hcellPart, had, hadPart⟩

/-! ### The timestamp (R137, R138) -/

/-- The two-digit number at a pair of digits, the model's as the spec's. -/
theorem pairVal_map_ascii {ds : List Nat} (hlt : ∀ d ∈ ds, d < 10) {k : Nat} (hk : 2 * k + 1 < ds.length) :
    pairVal (ds.map ascii) k = pair ds k := by
  have hdigit (j : Nat) (hj : j < ds.length) : digitVal ((ds.map ascii).getD j 0) = ds.getD j 0 := by
    simp only [List.getD_eq_getElem?_getD, List.getElem?_map, List.getElem?_eq_getElem hj, Option.map_some,
      Option.getD_some]
    exact digitVal_decDigit (hlt _ (List.getElem_mem hj))
  rw [pairVal, pair, hdigit _ (by omega), hdigit _ hk]

/-- The six numbers of twelve digits. -/
def timestampOf (ds : List Nat) : Timestamp where
  yy := pair ds 0
  mo := pair ds 1
  dd := pair ds 2
  hh := pair ds 3
  mi := pair ds 4
  ss := pair ds 5

/-- The model's range test is the spec's. -/
theorem inRange_timestampOf (ds : List Nat) : (timestampOf ds).inRange = true ↔ dateInRange ds := by
  rw [Timestamp.inRange, decide_eq_true_iff, dateInRange, monthDays]
  simp only [timestampOf]
  constructor
  · rintro ⟨h1, h12, hd, hdim, hrest⟩
    exact ⟨h1, h12, hd, daysInMonth_eq h1 h12 ▸ hdim, hrest⟩
  · rintro ⟨h1, h12, hd, hdim, hrest⟩
    exact ⟨h1, h12, hd, (daysInMonth_eq h1 h12).symm ▸ hdim, hrest⟩

/-- Twelve digits are parsed where they are in range. -/
theorem tsParse_map_ascii {ds : List Nat} (hlen : ds.length = 12) (hlt : ∀ d ∈ ds, d < 10) :
    tsParse (ds.map ascii) = if (timestampOf ds).inRange then some (timestampOf ds) else none := by
  have hdigits : (ds.map ascii).length = 12 ∧ (ds.map ascii).all isDigit = true :=
    ⟨by rw [List.length_map, hlen], all_isDigit_map hlt⟩
  rw [tsParse, if_pos hdigits]
  have hpair (k : Nat) (hk : k < 6) : pairVal (ds.map ascii) k = pair ds k := pairVal_map_ascii hlt (by omega)
  simp only [hpair, Nat.reduceLT]
  rfl

theorem tsParse_of_good {ts : Bytes} {ds : List Nat} (h : GoodTimestamp ts ds) : tsParse ts = some (timestampOf ds) := by
  obtain ⟨hlen, hlt, rfl, hrange⟩ := h
  rw [tsParse_map_ascii hlen hlt, if_pos ((inRange_timestampOf ds).2 hrange)]

/-- Whatever is not twelve digits in range does not parse. -/
theorem tsParse_of_not_good {ts : Bytes} (h : ¬ ∃ ds, GoodTimestamp ts ds) : tsParse ts = none := by
  by_cases hdigits : ts.length = 12 ∧ ts.all isDigit = true
  · obtain ⟨hlen, hall⟩ := hdigits
    have hts : (ts.map digitVal).map ascii = ts := map_decDigit_digitVal hall
    have hlen' : (ts.map digitVal).length = 12 := by rw [List.length_map, hlen]
    have hlt : ∀ d ∈ ts.map digitVal, d < 10 := by
      intro d hd
      obtain ⟨b, hb, rfl⟩ := List.mem_map.1 hd
      exact digitVal_lt (List.all_eq_true.1 hall b hb)
    rw [← hts, tsParse_map_ascii hlen' hlt, if_neg]
    exact fun hr => h ⟨_, hlen', hlt, hts.symm, (inRange_timestampOf _).1 hr⟩
  · exact if_neg hdigits

/-- A pair of digits is below 100, so it fits its register. -/
theorem pair_toNat {ds : List Nat} (hlt : ∀ d ∈ ds, d < 10) (k : Nat) :
    (BitVec.ofNat 8 (pair ds k)).toNat = pair ds k := by
  have hdigit (j : Nat) : ds.getD j 0 < 10 := by
    rw [List.getD_eq_getElem?_getD]
    cases hj : ds[j]? with
    | none => simp
    | some d => exact hlt d (List.mem_of_getElem? hj)
  have h0 := hdigit (2 * k)
  have h1 := hdigit (2 * k + 1)
  rw [BitVec.toNat_ofNat, pair]
  omega

/-- Settles O19. -/
theorem adecParsesTheTimestamp : Obligations.AdecParsesTheTimestamp := by
  intro s parts ck ts h hts
  have hget : parts.getD 6 [] = ts := by rw [List.getD_eq_getElem?_getD, hts]; rfl
  refine ⟨_, exec_adec_of_accepts h, hts, fun ds hds => ?_, fun hno => ?_⟩
  · have hlt := hds.2.1
    rw [asciiResponse_flag_tsBad, hget, tsParse_of_good hds]
    simp [asciiResponse, hts, tsParse_of_good hds, tsNumber, timestampOf, pair_toNat hlt]
  · rw [asciiResponse_flag_tsBad, hget, tsParse_of_not_good hno]
    simp [asciiResponse, hts, tsParse_of_not_good hno, tsNumber]

/-! ### The header (R139) -/

theorem hdrParse_of_good {h : Bytes} {id : Byte} {ds : List Nat} (hg : GoodHeader h id ds) :
    hdrParse h = some (id, digitsValue ds) := by
  obtain ⟨hne, hlt, rfl⟩ := hg
  exact hdrParse_eq_some.2
    ⟨ds.map ascii, rfl, by simpa using hne, all_isDigit_map hlt, (decVal_map_decDigit hlt).symm⟩

theorem hdrParse_of_not_good {h : Bytes} (hno : ¬ ∃ id ds, GoodHeader h id ds) : hdrParse h = none := by
  cases hp : hdrParse h with
  | none => rfl
  | some r =>
    obtain ⟨digits, rfl, hne, hall, _⟩ := hdrParse_eq_some.1 hp
    refine absurd ⟨r.1, digits.map digitVal, by simpa using hne, fun d hd => ?_, ?_⟩ hno
    · obtain ⟨b, hb, rfl⟩ := List.mem_map.1 hd
      exact digitVal_lt (List.all_eq_true.1 hall b hb)
    · rw [show (digits.map digitVal).map ascii = digits from map_decDigit_digitVal hall]
      rfl

/-- Settles O20. -/
theorem adecReportsTheHeader : Obligations.AdecReportsTheHeader := by
  intro s parts ck h hacc hh
  have hget : parts.getD 0 [] = h := by rw [List.getD_eq_getElem?_getD, hh]; rfl
  refine ⟨_, exec_adec_of_accepts hacc, hh, fun id ds hg => ?_, fun hno => ?_⟩
  · rw [asciiResponse_flag_hdrOk, hget, hdrParse_of_good hg]
    simp only [asciiResponse, hget, hdrParse_of_good hg, totalOf]
    refine ⟨rfl, rfl, fun hlt => ?_, fun hge => if_neg (Nat.not_lt_of_le hge)⟩
    exact (congrArg BitVec.toNat (if_pos hlt)).trans (Nat.mod_eq_of_lt hlt)
  · rw [asciiResponse_flag_hdrOk, hget, hdrParse_of_not_good hno]
    simp only [asciiResponse, hget, hdrParse_of_not_good hno]
    exact ⟨rfl, rfl, rfl⟩

/-! ### The named parts, and the final CRLF -/

/-- R132: an answered ADEC has at least 16 parts. -/
theorem length_PART_of_answers {s : State} {r : Response} (h : Answers s .adec r) : 16 ≤ r.PART.length := by
  cases h with
  | adec hmin => exact hmin

/-- A named part is absent exactly when its index is not below the number of parts (R32). -/
theorem field_eq_none_iff {r : Response} {p : PartName} : r.field p = none ↔ r.PART.length ≤ p.index :=
  List.getElem?_eq_none_iff

/-- Settles O21. -/
theorem adecNamesTheParts : Obligations.AdecNamesTheParts := by
  intro s t h hok
  have hlen := length_PART_of_answers (answers_of_ok h hok)
  refine ⟨rfl, rfl, rfl, rfl, rfl, rfl, rfl, rfl, rfl, rfl, rfl, rfl, rfl, rfl, rfl, rfl, rfl, rfl, rfl, rfl, rfl, hlen,
    fun p hp => ?_, field_eq_none_iff, field_eq_none_iff, field_eq_none_iff, field_eq_none_iff⟩
  have hindex : ∀ p ∈ [PartName.HDR, .IMEI, .CMD, .EVENT, .LAT, .LON, .TS, .STAT, .SATS, .GSM, .SPEED, .DIR, .HDOP, .ALT,
      .MILEAGE, .RUNTIME], p.index < 16 := by decide
  rw [Ne, field_eq_none_iff]
  exact Nat.not_le_of_lt (Nat.lt_of_lt_of_le (hindex p hp) hlen)

/-- ADEC's response is a function of what step 1 receives. -/
theorem adec_resp_congr {s s' t t' : State} (h : exec .adec s = .next t) (h' : exec .adec s' = .next t')
    (hr : receive s.req.IN = receive s'.req.IN) (hc : s.caps = s'.caps) : t.resp = t'.resp := by
  have hobs : responseOf (execAdec s) = responseOf (execAdec s') := by
    unfold execAdec inBytes
    rw [hr, hc]
    simp only [responseOf_ite, responseOf_raiseFatal, responseOf_answer]
  have hx : execAdec s = .next t := h
  have hx' : execAdec s' = .next t' := h'
  rw [hx, hx', responseOf_next, responseOf_next, Option.some.injEq] at hobs
  exact hobs

/-- Settles O22: with its CRLF taken off the input is the shorter one, which has none to take off. -/
theorem adecIgnoresOneFinalCrlf : Obligations.AdecIgnoresOneFinalCrlf := by
  intro s t u b hin hno ht hu
  refine adec_resp_congr hu ht ?_ rfl
  show receive b = receive s.req.IN
  rw [receive, receive, hin, stripCrlf_append, stripCrlf_of_not_suffix hno]

end Sys2Proof.Machine

/-! SUPPORT. 42_ascii_frame.md R141: ADEC of a frame that AENC built, and of one with a replaced byte. The frame of AENC
is read as the text of its header, its fields and one empty part, so the lemmas about ADEC's answer apply to it. -/

namespace Sys2Proof.Machine

open Sys2Proof.Config Sys2Proof.Claims

/-! ### Checksum texts (R46) -/

theorem hexDigit_ne_star : ∀ n < 16, hexDigit n ≠ 0x2A := by decide

theorem hexDigit_injective : ∀ m < 16, ∀ n < 16, hexDigit m = hexDigit n → m = n := by decide

theorem nibbles_lt (b : Byte) : b.toNat / 16 < 16 ∧ b.toNat % 16 < 16 :=
  ⟨Nat.div_lt_of_lt_mul b.isLt, Nat.mod_lt _ (by decide)⟩

/-- No checksum text holds a `*`. -/
theorem star_not_mem_hex2 (b : Byte) : 0x2A ∉ hex2 b := by
  obtain ⟨hhi, hlo⟩ := nibbles_lt b
  simp only [hex2, List.mem_cons, List.not_mem_nil, or_false, not_or]
  exact ⟨(hexDigit_ne_star _ hhi).symm, (hexDigit_ne_star _ hlo).symm⟩

/-- Two checksums with the same text are the same. -/
theorem hex2_injective {a b : Byte} (h : hex2 a = hex2 b) : a = b := by
  obtain ⟨hahi, halo⟩ := nibbles_lt a
  obtain ⟨hbhi, hblo⟩ := nibbles_lt b
  simp only [hex2, List.cons.injEq, and_true] at h
  have hhi := hexDigit_injective _ hahi _ hbhi h.1
  have hlo := hexDigit_injective _ halo _ hblo h.2
  exact BitVec.eq_of_toNat_eq (by omega)

/-! ### The frame as parts and checksum text -/

/-- The fields as they stand between two commas: no field at all still leaves one empty part. -/
def wireFields (fields : List Bytes) : List Bytes := if fields = [] then [[]] else fields

/-- The parts of the frame of these fields: the header, the fields, and the empty part before the `*`. -/
def frameParts (id : Byte) (fields : List Bytes) : List Bytes := [asciiHeader id fields] ++ wireFields fields ++ [[]]

theorem wireFields_length (fields : List Bytes) : (wireFields fields).length = max fields.length 1 := by
  rw [wireFields]
  split
  · subst fields
    rfl
  · have := List.length_pos_iff.2 ‹fields ≠ []›
    omega

theorem frameParts_length (id : Byte) (fields : List Bytes) :
    (frameParts id fields).length = max fields.length 1 + 2 := by
  simp only [frameParts, List.length_append, wireFields_length, List.length_singleton]
  omega

theorem frameParts_of_ne_nil (id : Byte) {fields : List Bytes} (h : fields ≠ []) :
    frameParts id fields = [asciiHeader id fields] ++ fields ++ [[]] := by
  rw [frameParts, wireFields, if_neg h]

theorem join_wireFields (c : Byte) (fields : List Bytes) : join c (wireFields fields) = join c fields := by
  rw [wireFields]
  split
  · subst fields
    rfl
  · rfl

theorem join_append_singleton {c : Byte} {L : List Bytes} (h : L ≠ []) (x : Bytes) :
    join c (L ++ [x]) = join c L ++ c :: x := by
  induction L with
  | nil => exact absurd rfl h
  | cons y L ih =>
    by_cases hL : L = []
    · subst hL
      rfl
    · rw [List.cons_append, join_cons (by simp), join_cons hL, ih hL, List.append_assoc, List.cons_append]

/-- The parts, joined again and closed with `*`, are the range the checksum covers. -/
theorem join_frameParts (id : Byte) (fields : List Bytes) :
    join 0x2C (frameParts id fields) ++ [0x2A] = asciiCovered id fields := by
  have hne : wireFields fields ≠ [] := List.length_pos_iff.1 (by rw [wireFields_length]; omega)
  rw [frameParts, join_append_singleton (by simp), List.singleton_append, join_cons hne, join_wireFields, asciiCovered,
    asciiBody]
  simp

theorem comma_not_mem_dec (n : Nat) : 0x2C ∉ dec n := fun h =>
  absurd (List.all_eq_true.1 (dec_all_isDigit n) _ h) (by decide)

/-- A text with a checksum and its CRLF, the parts joined by `join`. -/
theorem asciiText_some (parts : List Bytes) (cc : Bytes) :
    asciiText parts (some cc) true = join 0x2C parts ++ [0x2A] ++ cc ++ [0x0D, 0x0A] := by
  rw [asciiText, ← join_eq_intercalate, starText, List.append_assoc _ [0x2A]]
  rfl

/-- R141: the encoder's frame is read as its parts and its checksum text. -/
theorem asciiFrame_readsAs {id : Byte} {fields : List Bytes} (hid : id ≠ 0x2C) (hfields : ∀ f ∈ fields, 0x2C ∉ f) :
    ReadsAs (asciiFrame id fields) (frameParts id fields) (some (hex2 (sum8 (asciiCovered id fields)))) true where
  text := by
    rw [asciiText_some, join_frameParts]
    rfl
  nonempty := by simp [frameParts]
  noComma p hp := by
    rcases List.mem_append.1 hp with hp | hp
    · rcases List.mem_append.1 hp with hp | hp
      · rw [List.mem_singleton.1 hp, asciiHeader, List.mem_cons, List.mem_cons, List.mem_cons, not_or, not_or, not_or]
        exact ⟨by decide, by decide, hid.symm, comma_not_mem_dec _⟩
      · rw [wireFields] at hp
        split at hp
        · rw [List.mem_singleton.1 hp]
          exact List.not_mem_nil
        · exact hfields p hp
    · rw [List.mem_singleton.1 hp]
      exact List.not_mem_nil
  lastStar := star_not_mem_hex2 _
  oneCrlf := nofun

/-! ### What ADEC reports of the frame -/

/-- The checksum byte of the frame of these fields. -/
def frameChecksum (id : Byte) (fields : List Bytes) : Byte := sum8 (asciiCovered id fields)

/-- What step 1 of ADEC finds in the frame of these fields. -/
def frameReceived (id : Byte) (fields : List Bytes) : Received :=
  receivedOf (frameParts id fields) (some (hex2 (frameChecksum id fields)))

/-- What ADEC answers of the frame of these fields. -/
def frameReport (id : Byte) (fields : List Bytes) : Response :=
  asciiResponse (frameReceived id fields) (frameParts id fields)

/-- The decoder's recomputed checksum is the encoder's. -/
theorem asciiChecksum_frameReceived (id : Byte) (fields : List Bytes) :
    asciiChecksum (frameReceived id fields) = frameChecksum id fields := by
  rw [frameReceived, asciiChecksum_receivedOf, join_frameParts, frameChecksum]

/-- The header of a frame parses to its identifier and its length number. -/
theorem hdrParse_frameParts (id : Byte) (fields : List Bytes) :
    hdrParse ((frameParts id fields).getD 0 []) = some (id, asciiTotal fields) :=
  hdrParse_eq_some.2 ⟨_, rfl, dec_ne_nil _, dec_all_isDigit _, (decVal_dec _).symm⟩

theorem frameReport_header (id : Byte) (fields : List Bytes) :
    (frameReport id fields).HDRID = id ∧ (frameReport id fields).TOTAL = totalOf (asciiTotal fields) := by
  simp only [frameReport, asciiResponse, hdrParse_frameParts]
  exact ⟨rfl, rfl⟩

/-- The checksum is found and valid, and the header has its form. -/
theorem frameReport_flags (id : Byte) (fields : List Bytes) :
    (frameReport id fields).FLAGS.getLsbD 0 = true ∧ (frameReport id fields).FLAGS.getLsbD 1 = true ∧
    (frameReport id fields).FLAGS.getLsbD 2 = false ∧ (frameReport id fields).FLAGS.getLsbD 8 = true := by
  have hagree : ((frameReceived id fields).cktxt == hex2 (asciiChecksum (frameReceived id fields))) = true := by
    rw [asciiChecksum_frameReceived]
    exact beq_self_eq_true _
  rw [frameReport, asciiResponse_flag_found, asciiResponse_flag_valid, asciiResponse_flag_mismatch,
    asciiResponse_flag_hdrOk, hdrParse_frameParts, hagree]
  exact ⟨rfl, rfl, rfl, rfl⟩

/-- A length number that fits is the same word in both codecs. -/
theorem totalOf_eq_reg32 {n : Nat} (h : n < 2 ^ 32) : totalOf n = reg32 .TOTAL n := by
  rw [totalOf, reg32, if_pos h, if_pos h]

/-! ### ADEC of the encoder's answer -/

section RoundTrip

variable {s t : State} (hid : IdInRange s) (hfields : ∀ f ∈ s.req.FLD, 0x2C ∉ f) (h : exec .aenc s = .next t)
  (hok : t.resp.STATUS = 0)
include hid hfields h hok

/-- What the decoder reads of the answered frame. -/
theorem feedBack_adecReads :
    AdecReads (feedBack t) (frameParts s.ID s.req.FLD) (some (hex2 (frameChecksum s.ID s.req.FLD))) := by
  obtain ⟨hout, _⟩ := aenc_answer (answers_of_ok h hok)
  have hne : s.ID ≠ 0x2C := fun e => by rw [IdInRange, e] at hid; exact absurd hid (by decide)
  refine ⟨true, ?_⟩
  show ReadsAs t.resp.OUT _ _ _
  rw [hout]
  exact asciiFrame_readsAs hne hfields

/-- What ADEC answers where it accepts the number of parts. -/
theorem exec_adec_feedBack (hmin : 14 ≤ s.req.FLD.length) (hmax : s.req.FLD.length + 2 ≤ s.caps.maxPart) :
    exec .adec (feedBack t) = .next { feedBack t with resp := frameReport s.ID s.req.FLD } := by
  refine exec_adec_of_accepts ⟨feedBack_adecReads hid hfields h hok, ?_, ?_⟩ <;> rw [frameParts_length]
  · omega
  · rw [show (feedBack t).caps = s.caps from (exec_frame h).2]
    omega

end RoundTrip

/-- Settles O23. -/
theorem asciiFramesDecodeToTheirFields : Obligations.AsciiFramesDecodeToTheirFields := by
  intro s t hid hmin hmax hstruct h hok hlen
  have hfields : ∀ f ∈ s.req.FLD, 0x2C ∉ f := fun f hf => (hstruct f hf).1
  have hne : s.req.FLD ≠ [] := List.length_pos_iff.1 (by omega)
  obtain ⟨hout, hrb, hckc, htotal⟩ := aenc_answer (answers_of_ok h hok)
  have hck : (frameReport s.ID s.req.FLD).CKC = t.resp.CKC :=
    (asciiChecksum_frameReceived s.ID s.req.FLD).trans hckc.symm
  obtain ⟨hhdrid, hhdrtotal⟩ := frameReport_header s.ID s.req.FLD
  have hfits : asciiTotal s.req.FLD < 2 ^ 32 := by
    rw [hout, asciiFrame_length] at hlen
    omega
  refine ⟨_, asciiHeader s.ID s.req.FLD, exec_adec_feedBack hid hfields h hok (by omega) hmax, rfl,
    frameParts_of_ne_nil _ hne, hhdrid.trans hrb.symm, ?_, hck, ?_, rfl, frameReport_flags s.ID s.req.FLD⟩
  · rw [hhdrtotal, htotal, totalOf_eq_reg32 hfits]
  · rw [← hex2_eq_hexPair, hckc]
    rfl

/-! ### Short frames -/

/-- Settles O25: the parts are the fields, at least one, and two more; the last is empty. -/
theorem shortAsciiFramesAreTooFew : Obligations.ShortAsciiFramesAreTooFew := by
  intro s t hid hstruct hmax h hok
  have hfields : ∀ f ∈ s.req.FLD, 0x2C ∉ f := fun f hf => (hstruct f hf).1
  refine ⟨fun hshort => ?_, fun hlen => ?_⟩
  · rw [← frameParts_length s.ID]
    exact exec_adec_of_few (feedBack_adecReads hid hfields h hok) (by rw [frameParts_length]; omega)
  · have hne : s.req.FLD ≠ [] := List.length_pos_iff.1 (by omega)
    refine ⟨_, exec_adec_feedBack hid hfields h hok (by omega) (by omega), rfl, ?_, ?_⟩
    · show (frameParts s.ID s.req.FLD)[15]? = some []
      rw [frameParts_of_ne_nil _ hne, List.getElem?_append_right (by simp [hlen])]
      simp [hlen]
    · show (frameParts s.ID s.req.FLD)[16]? = none
      rw [List.getElem?_eq_none_iff, frameParts_length]
      omega

/-! ### The standard profile -/

/-- The values of the cell group. -/
def cellValues (p : StandardProfile) : List Bytes := [p.mcc, p.mnc, p.lac, p.cellId]

/-- The values of the analog group. -/
def analogValues (p : StandardProfile) : List Bytes := [p.ad1, p.ad2, p.ad3, p.battery, p.ad5]

theorem cellValues_subset (p : StandardProfile) : cellValues p ⊆ p.values := by simp [cellValues, StandardProfile.values]

theorem analogValues_subset (p : StandardProfile) : analogValues p ⊆ p.values := by
  simp [analogValues, StandardProfile.values]

/-- A field of the standard profile is a value or one of the two groups joined by `|`. -/
theorem mem_standardFields {p : StandardProfile} {f : Bytes} (hf : f ∈ standardFields p) :
    f ∈ p.values ∨ f = join 0x7C (cellValues p) ∨ f = join 0x7C (analogValues p) := by
  have happend : standardFields p = p.values.take 15 ++
      [join 0x7C (cellValues p), p.port, join 0x7C (analogValues p), p.evinfo] := rfl
  rw [happend, List.mem_append] at hf
  rcases hf with hf | hf
  · exact .inl (List.mem_of_mem_take hf)
  · simp only [List.mem_cons, List.not_mem_nil, or_false] at hf
    rcases hf with rfl | rfl | rfl | rfl
    · exact .inr (.inl rfl)
    · exact .inl (by simp [StandardProfile.values])
    · exact .inr (.inr rfl)
    · exact .inl (by simp [StandardProfile.values])

/-- Values without a comma make fields without one: the groups are joined by `|`. -/
theorem comma_not_mem_standardFields {p : StandardProfile} (h : ∀ v ∈ p.values, 0x2C ∉ v) :
    ∀ f ∈ standardFields p, 0x2C ∉ f := by
  have hjoin {L : List Bytes} (hL : L ⊆ p.values) : 0x2C ∉ join 0x7C L := by
    intro hmem
    rcases mem_of_mem_join hmem with he | ⟨v, hv, hb⟩
    · exact absurd he (by decide)
    · exact h v (hL hv) hb
  intro f hf
  rcases mem_standardFields hf with hf | rfl | rfl
  · exact h f hf
  · exact hjoin (cellValues_subset p)
  · exact hjoin (analogValues_subset p)

/-- A group joined from values without `|` is populated with them. -/
theorem group_of_join {index : Nat} {parts subs : List Bytes} (hpart : parts[index]? = some (join 0x7C subs))
    (hne : subs ≠ []) (hbar : ∀ x ∈ subs, 0x7C ∉ x) : group index subs.length parts = some subs := by
  rw [group_of_part hpart, split_join hne hbar, if_neg (Nat.lt_irrefl _), List.take_length]

/-- The parts of a profile's frame. -/
def profileParts (hdr : Bytes) (p : StandardProfile) : List Bytes := [hdr] ++ standardFields p ++ [[]]

theorem frameParts_standardFields (id : Byte) (p : StandardProfile) :
    frameParts id (standardFields p) = profileParts (asciiHeader id (standardFields p)) p :=
  frameParts_of_ne_nil id (List.cons_ne_nil _ _)

/-- Both groups of a profile without `|` in its values are whole. -/
theorem groups_profileParts {p : StandardProfile} (hbar : ∀ v ∈ p.values, 0x7C ∉ v) (hdr : Bytes) :
    cellGroup (profileParts hdr p) = some (cellValues p) ∧ adGroup (profileParts hdr p) = some (analogValues p) :=
  ⟨group_of_join (index := 16) (subs := cellValues p) rfl (List.cons_ne_nil _ _)
    fun x hx => hbar x (cellValues_subset p hx),
   group_of_join (index := 18) (subs := analogValues p) rfl (List.cons_ne_nil _ _)
    fun x hx => hbar x (analogValues_subset p hx)⟩

/-- A served AENC request is an AENC of its fields. -/
theorem serve_aenc {fields : List Bytes} {s t : State} (h : serve (.aenc fields) s = some t) :
    ∃ s', s'.ID = s.ID ∧ s'.req.FLD = fields ∧ s'.caps = s.caps ∧ exec .aenc s' = .next t :=
  ⟨{ s with req := requestOperands (.aenc fields) s.req }, rfl, rfl, rfl, (serve_eq_some.1 h).2⟩

/-- Settles O24: the served request is an AENC of the profile's fields, and its frame's parts are read by name. -/
theorem standardProfileFramesDecodeToTheProfile : Obligations.StandardProfileFramesDecodeToTheProfile := by
  intro p s t hid hmax hstruct hserve hok
  have hcomma : ∀ v ∈ p.values, 0x2C ∉ v := fun v hv hmem => (hstruct v hv _ hmem).1 rfl
  have hbar : ∀ v ∈ p.values, 0x7C ∉ v := fun v hv hmem => (hstruct v hv _ hmem).2.2.2.2 rfl
  obtain ⟨s', hid', hfld, hcaps, h⟩ := serve_aenc hserve
  have hlen : s'.req.FLD.length = 19 := hfld ▸ rfl
  have hx := exec_adec_feedBack (by rwa [IdInRange, hid']) (hfld ▸ comma_not_mem_standardFields hcomma) h hok
    (by omega) (by rw [hlen, hcaps]; exact hmax)
  obtain ⟨_, hvalid, _, _⟩ := frameReport_flags s'.ID s'.req.FLD
  obtain ⟨hhdrid, _⟩ := frameReport_header s'.ID s'.req.FLD
  rw [frameReport, hfld, frameParts_standardFields] at hx hvalid hhdrid
  obtain ⟨hcell, had⟩ := groups_profileParts hbar (asciiHeader s'.ID (standardFields p))
  refine ⟨_, hx, rfl, rfl, hvalid, ?_, ?_, hhdrid.trans hid', congrArg (·.getD []) hcell, congrArg (·.getD []) had,
    rfl, rfl, rfl, rfl, rfl, rfl, rfl, rfl, rfl, rfl, rfl, rfl, rfl, rfl, rfl, rfl, rfl, rfl⟩
  · rw [asciiResponse_flag_cellOk, hcell]
    rfl
  · rw [asciiResponse_flag_adOk, had]
    rfl

/-! ### One replaced byte -/

/-- Replacing one byte by another, neither of them the separator, changes no element but the one it stands in. -/
theorem split_replace {c x y : Byte} (hx : x ≠ c) (hy : y ≠ c) (p q : Bytes) {j : Nat} (hj : j ≠ p.count c) :
    (split c (p ++ y :: q))[j]? = (split c (p ++ x :: q))[j]? := by
  induction p generalizing j with
  | nil =>
    rw [List.nil_append, List.nil_append, split, split, if_neg hx, if_neg hy]
    obtain ⟨j, rfl⟩ := Nat.exists_eq_succ_of_ne_zero hj
    cases split c q <;> rfl
  | cons b p ih =>
    rw [List.cons_append, List.cons_append, split, split]
    by_cases hb : b = c
    · rw [if_pos hb, if_pos hb]
      rw [hb, List.count_cons_self] at hj
      cases j with
      | zero => rfl
      | succ j => exact ih fun e => hj (congrArg (· + 1) e)
    · rw [if_neg hb, if_neg hb]
      rw [List.count_cons_of_ne hb] at hj
      have hall := ih hj
      cases hsy : split c (p ++ y :: q) with
      | nil => exact absurd hsy (split_ne_nil _ _)
      | cons py psy =>
        cases hsx : split c (p ++ x :: q) with
        | nil => exact absurd hsx (split_ne_nil _ _)
        | cons px psx =>
          rw [hsy, hsx] at hall
          cases j with
          | zero => exact congrArg (Option.map (b :: ·)) hall
          | succ j => exact hall

/-- What step 1 receives of a text with a checksum and its CRLF. -/
theorem receive_checked (ftxt : Bytes) {ck : Bytes} (hck : 0x2A ∉ ck) : receive (ftxt ++ 0x2A :: ck ++ [0x0D, 0x0A]) =
    { found := true, cktxt := ck, cov := ftxt ++ [0x2A], ftxt := ftxt } := receive_of_star (stripCrlf_append _) hck

/-- What an ADEC without a fatal result has found and answered. -/
theorem adec_answer {s t : State} (h : exec .adec s = .next t) (hok : t.resp.STATUS = 0) :
    16 ≤ (split 0x2C (receive s.req.IN).ftxt).length ∧ (split 0x2C (receive s.req.IN).ftxt).length ≤ s.caps.maxPart ∧
    t.resp = asciiResponse (receive s.req.IN) (split 0x2C (receive s.req.IN).ftxt) := by
  have hans := answers_of_ok h hok
  generalize t.resp = r at hans ⊢
  cases hans with
  | adec hmin hmax => exact ⟨hmin, hmax, rfl⟩

/-- A response with a flag set is no fatal result. -/
theorem ok_of_flag {i : Instr} {s t : State} {k : Nat} (h : exec i s = .next t) (hf : t.resp.FLAGS.getLsbD k = true) :
    t.resp.STATUS = 0 := by
  rcases resp_cases h with ⟨e, _, hr⟩ | hr
  · rw [hr, fatalResponse_FLAGS] at hf
    exact absurd hf (by simp)
  · exact hr.STATUS

/-- Where the number of parts is accepted, ADEC ends without a fatal result. -/
theorem adec_ok_of_accepted {s t : State} {f : Received} (h : exec .adec s = .next t) (hf : receive s.req.IN = f)
    (hmin : 16 ≤ (split 0x2C f.ftxt).length) (hmax : (split 0x2C f.ftxt).length ≤ s.caps.maxPart) :
    t.resp.STATUS = 0 := by
  subst hf
  rcases execAdec_cases s with ⟨hfew, _⟩ | ⟨_, hmany, _⟩ | ⟨_, _, hx⟩
  · exact absurd hmin (Nat.not_le_of_lt hfew)
  · exact absurd hmax (Nat.not_le_of_lt hmany)
  · cases next_inj (hx.symm.trans h)
    rfl

/-- The number of parts does not change where neither byte is a separator. -/
theorem split_replace_length {c x y : Byte} (hx : x ≠ c) (hy : y ≠ c) (p q : Bytes) :
    (split c (p ++ y :: q)).length = (split c (p ++ x :: q)).length := by
  simp only [split_length, List.count_append, List.count_cons_of_ne hx, List.count_cons_of_ne hy]

/-- Settles O26: the covered sum changes with the byte, so its text does, and the parts change in one place. -/
theorem adecDetectsOneCorruptedByte : Obligations.AdecDetectsOneCorruptedByte := by
  intro s t u p q ck x y hin hck hxy ht hvalid hu
  have hrx : receive s.req.IN = _ := hin ▸ receive_checked (p ++ x :: q) hck
  have hry := receive_checked (p ++ y :: q) hck
  obtain ⟨hmin, hmax, hrespx⟩ := adec_answer ht (ok_of_flag ht hvalid)
  rw [hrx] at hmin hmax hrespx
  have hckx : ck = hex2 (sum8 (p ++ x :: q ++ [0x2A])) := by
    rw [hrespx, asciiResponse_flag_valid] at hvalid
    exact eq_of_beq hvalid
  have hcky : ck ≠ hex2 (sum8 (p ++ y :: q ++ [0x2A])) := fun e => by
    have hsum := hex2_injective (e.symm.trans hckx)
    rw [List.append_assoc, List.append_assoc, List.cons_append, List.cons_append] at hsum
    exact sum8_replace_ne hxy p (q ++ [0x2A]) hsum
  have hrespy (hok : u.resp.STATUS = 0) : u.resp = asciiResponse (receive (p ++ y :: q ++ 0x2A :: ck ++ [0x0D, 0x0A]))
      (split 0x2C (receive (p ++ y :: q ++ 0x2A :: ck ++ [0x0D, 0x0A])).ftxt) := (adec_answer hu hok).2.2
  rw [hry] at hrespy
  refine ⟨fun hok => ?_, fun hx hy => ?_⟩
  · have hbeq : (ck == hex2 (sum8 (p ++ y :: q ++ [0x2A]))) = false := beq_false_of_ne hcky
    rw [hrespy hok, asciiResponse_flag_found, asciiResponse_flag_valid, asciiResponse_flag_mismatch]
    exact ⟨rfl, hbeq, congrArg (!·) hbeq, rfl⟩
  · have hlen := split_replace_length hx hy p q
    have hok : u.resp.STATUS = 0 := adec_ok_of_accepted hu hry (hmin.trans_eq hlen.symm) (hlen.trans_le hmax)
    rw [hrespy hok, hrespx]
    exact ⟨rfl, hlen, fun j hj => split_replace hx hy p q hj⟩

end Sys2Proof.Machine

/-! SUPPORT. 44_bsj_frame.md R161 to R167, 30_encoding.md R71 to R75: the frame of BENC in the words of the spec, and the
checks BENC makes before it. -/

namespace Sys2Proof.Machine

open Sys2Proof.Config Sys2Proof.Claims

/-! ### The phone digits (R45, R162) -/

/-- Digits pass the phone check when there are at most 12 of them. -/
theorem phoneFault_of_digits {phn : Bytes} {phone : List Nat} (h : PhoneDigits phn phone) : phoneFault phn = none := by
  obtain ⟨rfl, hlen, hlt⟩ := h
  have hnone : (phone.map ascii).findIdx? (fun b => !isDigit b) = none := by
    rw [List.findIdx?_eq_none_iff]
    intro b hb
    rw [List.all_eq_true.1 (all_isDigit_map hlt) b hb]
    rfl
  rw [phoneFault, hnone]
  exact if_neg (by rw [List.length_map]; omega)

/-- Behind some digits, the first bad byte is found at their number. -/
theorem findIdx?_not_isDigit {d : List Nat} (hlt : ∀ x ∈ d, x < 10) (q : Bytes) :
    (d.map ascii ++ q).findIdx? (fun b => !isDigit b) = (q.findIdx? (fun b => !isDigit b)).map (· + d.length) := by
  induction d with
  | nil => simp
  | cons x d ih =>
    have hx : isDigit (ascii x) = true := isDigit_decDigit (hlt x (List.mem_cons_self ..))
    rw [List.map_cons, List.cons_append, List.findIdx?_cons, hx, ih fun y hy => hlt y (List.mem_cons_of_mem _ hy)]
    simp [Function.comp_def, Nat.add_assoc]

theorem isDigit_of_outside {b : Byte} (h : b.toNat < 0x30 ∨ 0x39 < b.toNat) : isDigit b = false := by
  rw [isDigit, decide_eq_false_iff_not]
  omega

/-- R162, first clause: a bad byte among the first 12. -/
theorem phoneFault_of_bad {d : List Nat} (hlt : ∀ x ∈ d, x < 10) (hlen : d.length < 12) {b : Byte} (hb : isDigit b = false)
    (q : Bytes) : phoneFault (d.map ascii ++ b :: q) = some d.length := by
  rw [phoneFault, findIdx?_not_isDigit hlt, List.findIdx?_cons, hb]
  simp
  omega

/-- R162, second clause: more than 12 bytes behind 12 digits, whatever they are (log 6). -/
theorem phoneFault_of_long {d : List Nat} (hlt : ∀ x ∈ d, x < 10) (hlen : d.length = 12) {q : Bytes} (hq : q ≠ []) :
    phoneFault (d.map ascii ++ q) = some 12 := by
  have hpos := List.length_pos_iff.2 hq
  rw [phoneFault, findIdx?_not_isDigit hlt]
  cases q.findIdx? (fun b => !isDigit b) with
  | none => exact if_pos (by rw [List.length_append, List.length_map]; omega)
  | some k => exact congrArg some (Nat.min_eq_right (by show 12 ≤ k + d.length; omega))

theorem padPhone_map_ascii (phone : List Nat) : padPhone (phone.map ascii) = (padded phone).map ascii := by
  rw [padPhone, padded, List.map_append, List.map_replicate, List.length_map]
  rfl

theorem padded_length {phone : List Nat} (h : phone.length ≤ 12) : (padded phone).length = 12 := by
  rw [padded, List.length_append, List.length_replicate]
  omega

theorem padded_lt {phone : List Nat} (h : ∀ d ∈ phone, d < 10) : ∀ d ∈ padded phone, d < 10 := by
  intro d hd
  rcases List.mem_append.1 hd with hd | hd
  · rw [List.eq_of_mem_replicate hd]
    decide
  · exact h d hd

/-- R45: digits packed by pairs, the pair `j` at offset `j`. -/
theorem packBcd_map_ascii (p : List Nat) (h : ∀ d ∈ p, d < 10) : packBcd (p.map ascii) =
    (List.range (p.length / 2)).map (fun j => BitVec.ofNat 8 (p.getD (2 * j) 0 * 16 + p.getD (2 * j + 1) 0)) := by
  match p with
  | [] => rfl
  | [_] => simp [packBcd]
  | a :: b :: r =>
    have ha : digitVal (ascii a) = a := digitVal_decDigit (h a (by simp))
    have hb : digitVal (ascii b) = b := digitVal_decDigit (h b (by simp))
    have hlen : (a :: b :: r).length / 2 = r.length / 2 + 1 := by
      simp only [List.length_cons]
      omega
    rw [List.map_cons, List.map_cons, packBcd, ha, hb, packBcd_map_ascii r fun d hd => h d (by simp [hd]), hlen,
      List.range_succ_eq_map, List.map_cons, List.map_map]
    rfl

/-- The digits come back from their packed bytes. -/
theorem nibbles_packBcd (p : List Nat) (h : ∀ d ∈ p, d < 10) (heven : p.length % 2 = 0) :
    nibbles (packBcd (p.map ascii)) = p := by
  match p with
  | [] => rfl
  | [_] => cases heven
  | a :: b :: r =>
    have ha : a < 10 := h a (by simp)
    have hb : b < 10 := h b (by simp)
    have hbyte : (BitVec.ofNat 8 (a * 16 + b)).toNat = a * 16 + b := by rw [BitVec.toNat_ofNat]; omega
    have hrest := nibbles_packBcd r (fun d hd => h d (by simp [hd])) (by simp at heven; omega)
    rw [List.map_cons, List.map_cons, packBcd, nibbles, hrest, show digitVal (ascii a) = a from digitVal_decDigit ha,
      show digitVal (ascii b) = b from digitVal_decDigit hb, hbyte]
    congr 1
    · omega
    · congr 1
      omega

/-- The packed phone field in the spec's notions (R72). -/
theorem packBcd_padPhone {phn : Bytes} {phone : List Nat} (h : PhoneDigits phn phone) :
    packBcd (padPhone phn) = bcdOf (padded phone) := by
  obtain ⟨rfl, hlen, hlt⟩ := h
  rw [padPhone_map_ascii, packBcd_map_ascii _ (padded_lt hlt), padded_length hlen]
  rfl

/-! ### The frame (R71 to R75) -/

theorem bsjCovered_eq {cmd phn : Bytes} {phone : List Nat} (h : PhoneDigits phn phone) (serial : Nat) :
    bsjCovered cmd phn serial = bsjUnescaped cmd phone serial := by
  rw [bsjCovered, bsjHeader, packBcd_padPhone h, bsjUnescaped]
  simp [be16, bsjBody]

theorem bsjFrame_eq {cmd phn : Bytes} {phone : List Nat} {serial : Nat} {ck : Byte} (h : PhoneDigits phn phone)
    (hck : IsByteXor ck (bsjUnescaped cmd phone serial)) : bsjFrame cmd phn serial = bsjWire cmd phone serial ck := by
  rw [bsjFrame, bsjCovered_eq h, ← isByteXor_iff.1 hck, escape_eq_escaped]
  rfl

/-- The whole string that BENC escapes: header and body, closed with their exclusive or (R74). -/
def bsjChecked (cmd phn : Bytes) (serial : Nat) : Bytes :=
  bsjCovered cmd phn serial ++ [xor8 (bsjCovered cmd phn serial)]

theorem bsjFrame_eq_flagged (cmd phn : Bytes) (serial : Nat) :
    bsjFrame cmd phn serial = [0x7E] ++ escape (bsjChecked cmd phn serial) ++ [0x7E] := rfl

/-- Header and body before escaping: 12 bytes of header, the body flag byte and the command. -/
theorem bsjCovered_length {cmd phn : Bytes} (h : phoneFault phn = none) (serial : Nat) :
    (bsjCovered cmd phn serial).length = 13 + cmd.length := by
  have hpad := padPhone_length (length_le_of_phoneFault h)
  simp [bsjCovered, bsjHeader, packBcd_length, hpad, bsjBody]
  omega

/-! ### The ends of BENC (R161 to R166) -/

/-- The first bad phone byte ends BENC before anything else is looked at. -/
theorem exec_benc_of_phoneFault {s : State} {k : Nat} (h : phoneFault s.req.PHN = some k) :
    EndsFatally .benc s 0x04 k := by
  rcases execBenc_cases s with ⟨k', hk, hx⟩ | ⟨hk, _⟩ | ⟨_, hk, _⟩ | ⟨_, hk, _⟩ | ⟨_, hk, _⟩ <;>
    cases hk.symm.trans h
  exact endsFatally (i := .benc) (e := .invalidPhoneNumber k) rfl hx

/-- Settles O32. -/
theorem bencRefusesABadPhoneFirst : Obligations.BencRefusesABadPhoneFirst := by
  refine fun s d q hlt => ⟨fun b hphn hlen hb => ?_, fun hphn hlen hq => ?_⟩ <;>
    refine exec_benc_of_phoneFault ?_ <;> rw [hphn]
  · exact phoneFault_of_bad hlt hlen (isDigit_of_outside hb) q
  · exact phoneFault_of_long hlt hlen hq

/-- Settles O33: with a good phone the serial is looked at next. -/
theorem bencRefusesABadSerial : Obligations.BencRefusesABadSerial := by
  intro s phone hphn hser
  have hgood := phoneFault_of_digits hphn
  rcases execBenc_cases s with ⟨_, hk, _⟩ | ⟨_, _, hx⟩ | ⟨_, _, hn, _⟩ | ⟨_, _, hn, _⟩ | ⟨_, _, hn, _⟩
  · cases hk.symm.trans hgood
  · exact hx
  all_goals omega

/-- Settles O34: with both good the length of the body is looked at next. -/
theorem bencRefusesALongBody : Obligations.BencRefusesALongBody := by
  intro s phone serial hphn hser hlong
  have hgood := phoneFault_of_digits hphn
  obtain ⟨hserial, hle⟩ := hser
  rcases execBenc_cases s with ⟨_, hk, _⟩ | ⟨_, hn, _⟩ | ⟨_, _, _, _, _, hx⟩ | ⟨_, _, _, _, hl, _⟩ | ⟨_, _, _, _, hl, _⟩
  · cases hk.symm.trans hgood
  · omega
  · exact endsFatally (i := .benc) (e := .bodyTooLong _) rfl hx
  all_goals omega

/-- R161: what BENC accepts ends with the frame or with its length. -/
theorem exec_benc_of_accepts {s : State} {phone : List Nat} {serial : Nat} (h : BencAccepts s phone serial) :
    (s.caps.maxOut < (bsjFrame s.req.IN s.req.PHN serial).length ∧
      EndsFatally .benc s 0x0B (bsjFrame s.req.IN s.req.PHN serial).length) ∨
    ((bsjFrame s.req.IN s.req.PHN serial).length ≤ s.caps.maxOut ∧
      exec .benc s = .next { s with resp := bsjEncoded s.req.IN s.req.PHN serial }) := by
  obtain ⟨hphn, ⟨hserial, hle⟩, hbody⟩ := h
  have hgood := phoneFault_of_digits hphn
  rcases execBenc_cases s with ⟨_, hk, _⟩ | ⟨_, hn, _⟩ | ⟨_, _, _, _, hl, _⟩ | ⟨n, _, hn, _, _, hc, hx⟩ |
    ⟨n, _, hn, _, _, hc, hx⟩
  · cases hk.symm.trans hgood
  · omega
  · omega
  all_goals obtain rfl : n = serial := by omega
  · exact .inl ⟨hc, endsFatally (i := .benc) (e := .capacityExceeded _) rfl hx⟩
  · exact .inr ⟨hc, hx⟩

/-- The encoder's response in the spec's notions. -/
theorem bsjEncoded_eq {cmd phn : Bytes} {phone : List Nat} {serial : Nat} {ck : Byte} (h : PhoneDigits phn phone)
    (hck : IsByteXor ck (bsjUnescaped cmd phone serial)) : bsjEncoded cmd phn serial =
    { Response.cleared with
      OUT := bsjWire cmd phone serial ck
      OUTHEX := (bsjWire cmd phone serial ck).flatMap hexPair
      CKC := ck
      MSGID := 0x8300
      LENW := BitVec.ofNat 16 (cmd.length + 1)
      SERIAL := BitVec.ofNat 16 serial
      BCD := bcdOf (padded phone)
      PHONE := (padded phone).map ascii } := by
  have hhex : hexstr (bsjWire cmd phone serial ck) = (bsjWire cmd phone serial ck).flatMap hexPair := by
    rw [hexstr_eq_flatMap, funext hex2_eq_hexPair]
  have hphone : padPhone phn = (padded phone).map ascii := h.1 ▸ padPhone_map_ascii phone
  rw [bsjEncoded, bsjFrame_eq h hck, hhex, bsjCovered_eq h, ← isByteXor_iff.1 hck, packBcd_padPhone h, hphone]
  rfl

/-- Settles O31. -/
theorem bencBuildsTheFlaggedFrame : Obligations.BencBuildsTheFlaggedFrame := by
  refine ⟨by decide, fun s phone serial ck hacc hck => ?_⟩
  have hends := exec_benc_of_accepts hacc
  rw [bsjFrame_eq hacc.1 hck, bsjEncoded_eq hacc.1 hck] at hends
  rcases hends with ⟨hover, hfatal⟩ | ⟨hfits, hx⟩
  · exact ⟨fun h => absurd h (Nat.not_le_of_lt hover), fun _ => hfatal⟩
  · exact ⟨fun _ => hx, fun h => absurd h (Nat.not_lt_of_le hfits)⟩

/-! ### The shape of the frame (R167) -/

/-- A string closed with its exclusive or has exclusive or 0. -/
theorem isByteXor_zero_closed (s : Bytes) : IsByteXor 0 (s ++ [xor8 s]) := by
  rw [isByteXor_iff, xor8_append, xor8_cons]
  simp [xor8]

/-- Settles O35: the frame is the escaped string of the covered bytes and their exclusive or, between two flag bytes. -/
theorem bencFrameHasItsShape : Obligations.BencFrameHasItsShape := by
  intro s t h hok
  have hhex := benc_OUTHEX_length h
  have hans := answers_of_ok h hok
  generalize t.resp = r at hans hhex ⊢
  cases hans with
  | benc n hphn _ =>
    refine ⟨escape (bsjChecked s.req.IN s.req.PHN n), bsjChecked s.req.IN s.req.PHN n, bsjFrame_eq_flagged _ _ _,
      not_mem_escape _, unescapes_escape _, ?_, ⟨(bsjChecked s.req.IN s.req.PHN n).drop 2, rfl⟩, isByteXor_zero_closed _,
      escape_length _, hhex⟩
    rw [bsjChecked, List.length_append, bsjCovered_length hphn, List.length_singleton]
    omega

end Sys2Proof.Machine

/-! SUPPORT. 44_bsj_frame.md R170 to R175: BDEC. Its input is framed by two flag bytes, its unescaped string is a layout of
fields by position, and its answer is read off that layout. -/

namespace Sys2Proof.Machine

open Sys2Proof.Config Sys2Proof.Claims

/-! ### The flag bytes (R171) -/

theorem bsjInner_framed (inner : Bytes) : bsjInner ([0x7E] ++ inner ++ [0x7E]) = inner := by simp [bsjInner]

/-- The first flag byte behind a run without one. -/
theorem findIdx?_flag_of_not_mem {a : Bytes} (h : 0x7E ∉ a) (q : Bytes) :
    (a ++ q).findIdx? (fun b => b == 0x7E) = (q.findIdx? (fun b => b == 0x7E)).map (· + a.length) := by
  have hnone : a.findIdx? (fun b => b == 0x7E) = none := by
    rw [List.findIdx?_eq_none_iff]
    exact fun b hb => beq_false_of_ne fun e => h (e ▸ hb)
  rw [List.findIdx?_append, hnone]
  simp

/-- Two flag bytes at the ends pass the first check. -/
theorem framed_ends (inner : Bytes) : ¬ (([0x7E] ++ inner ++ [0x7E] : Bytes).length < 2 ∨
    ([0x7E] ++ inner ++ [0x7E] : Bytes).head? ≠ some 0x7E ∨ ([0x7E] ++ inner ++ [0x7E] : Bytes).getLast? ≠ some 0x7E) := by
  simp only [not_or, not_not, Nat.not_lt]
  exact ⟨by simp, rfl, List.getLast?_concat ..⟩

/-- A missing flag byte ends BDEC first. -/
theorem exec_bdec_of_missing {s : State}
    (h : s.req.IN.length < 2 ∨ s.req.IN.head? ≠ some 0x7E ∨ s.req.IN.getLast? ≠ some 0x7E) :
    EndsFatally .bdec s 0x07 s.req.IN.length := by
  rcases execBdec_cases s with ⟨_, hx⟩ | ⟨_, hn, _⟩ | ⟨_, hn, _⟩ | ⟨_, hn, _⟩ | ⟨_, hn, _⟩ | ⟨_, hn, _⟩
  · exact endsFatally (i := .bdec) (e := .missingFlag _) rfl hx
  all_goals exact absurd h hn

/-- A flag byte between the two ends BDEC next. -/
theorem exec_bdec_of_interior {s : State} {inner : Bytes} {j : Nat} (hin : s.req.IN = [0x7E] ++ inner ++ [0x7E])
    (hj : inner.findIdx? (fun b => b == 0x7E) = some j) : EndsFatally .bdec s 0x08 (j + 1) := by
  have hcases := execBdec_cases s
  simp only [hin, bsjInner_framed, hj] at hcases
  rcases hcases with ⟨hbad, _⟩ | ⟨_, _, hk, hx⟩ | ⟨_, _, hk, _⟩ | ⟨_, _, hk, _⟩ | ⟨_, _, hk, _⟩ | ⟨_, _, hk, _⟩
  · exact absurd hbad (framed_ends inner)
  · cases hk
    exact endsFatally (i := .bdec) (e := .interiorFlag _) rfl hx
  all_goals cases hk

/-- Settles O37. -/
theorem bdecRefusesMissingOrInteriorFlags : Obligations.BdecRefusesMissingOrInteriorFlags := by
  refine fun s => ⟨exec_bdec_of_missing, fun a b hin ha => ?_⟩
  refine exec_bdec_of_interior (inner := a ++ [0x7E] ++ b) (by rw [hin]; simp) ?_
  rw [List.append_assoc, findIdx?_flag_of_not_mem ha, List.singleton_append, List.findIdx?_cons]
  simp

/-! ### The ends of BDEC behind the flags (R170, R172, R207) -/

/-- The payload of `u.length` unescaped bytes: all but 13 before it and the checksum byte behind it. -/
theorem bsjPayload_length (u : Bytes) : (bsjBodyOf u).tail.length = u.length - 14 := by
  rw [List.length_tail, bsjBodyOf, List.length_dropLast, List.length_drop]
  omega

section Framed

variable {s : State} {inner : Bytes} (hf : Framed s.req.IN inner)
include hf

/-- Behind the flags BDEC ends at a bad escape pair, or looks at the length of what was unescaped. -/
theorem exec_bdec_of_framed :
    (∃ i, unescape inner = .error i ∧ EndsFatally .bdec s 0x06 (i + 1)) ∨
    (∃ u, unescape inner = .ok u ∧ u.length < 14 ∧ EndsFatally .bdec s 0x09 u.length) ∨
    (∃ u, unescape inner = .ok u ∧ 14 ≤ u.length ∧ s.caps.maxOut < u.length - 14 ∧
      EndsFatally .bdec s 0x0B (u.length - 14)) ∨
    (∃ u, unescape inner = .ok u ∧ 14 ≤ u.length ∧ u.length - 14 ≤ s.caps.maxOut ∧
      exec .bdec s = .next { s with resp := bsjDecoded u }) := by
  obtain ⟨hin, hno⟩ := hf
  have hnone : inner.findIdx? (fun b => b == 0x7E) = none := by
    simpa using findIdx?_flag_of_not_mem hno []
  have hcases := execBdec_cases s
  simp only [hin, bsjInner_framed, hnone, bsjPayload_length] at hcases
  rcases hcases with ⟨hbad, _⟩ | ⟨_, _, hk, _⟩ | ⟨i, _, _, hu, hx⟩ | ⟨u, _, _, hu, hlen, hx⟩ |
    ⟨u, _, _, hu, hlen, hc, hx⟩ | ⟨u, _, _, hu, hlen, hc, hx⟩
  · exact absurd hbad (framed_ends inner)
  · cases hk
  · exact .inl ⟨i, hu, endsFatally (i := .bdec) (e := .unescapedControlByte _) rfl hx⟩
  · exact .inr (.inl ⟨u, hu, hlen, endsFatally (i := .bdec) (e := .truncated _) rfl hx⟩)
  · exact .inr (.inr (.inl ⟨u, hu, hlen, hc, endsFatally (i := .bdec) (e := .capacityExceeded _) rfl hx⟩))
  · exact .inr (.inr (.inr ⟨u, hu, hlen, hc, hx⟩))

theorem exec_bdec_of_stopsAt {i : Nat} (h : StopsAt inner i) : EndsFatally .bdec s 0x06 (i + 1) := by
  rcases exec_bdec_of_framed hf with ⟨_, hu, hx⟩ | ⟨_, hu, _⟩ | ⟨_, hu, _⟩ | ⟨_, hu, _⟩ <;>
    cases (unescape_of_stopsAt h).symm.trans hu
  exact hx

variable {u : Bytes} (h : Unescapes inner u)
include h

theorem exec_bdec_of_truncated (hlen : u.length < 14) : EndsFatally .bdec s 0x09 u.length := by
  rcases exec_bdec_of_framed hf with ⟨_, hu, _⟩ | ⟨_, hu, _, hx⟩ | ⟨_, hu, hl, _⟩ | ⟨_, hu, hl, _⟩ <;>
    cases (unescape_of_unescapes h).symm.trans hu
  · exact hx
  all_goals omega

theorem exec_bdec_of_overflow (hlen : 14 ≤ u.length) (hover : s.caps.maxOut < u.length - 14) :
    EndsFatally .bdec s 0x0B (u.length - 14) := by
  rcases exec_bdec_of_framed hf with ⟨_, hu, _⟩ | ⟨_, hu, hl, _⟩ | ⟨_, hu, _, _, hx⟩ | ⟨_, hu, _, hc, _⟩ <;>
    cases (unescape_of_unescapes h).symm.trans hu
  · omega
  · exact hx
  · omega

theorem exec_bdec_of_fits (hlen : 14 ≤ u.length) (hfits : u.length - 14 ≤ s.caps.maxOut) :
    exec .bdec s = .next { s with resp := bsjDecoded u } := by
  rcases exec_bdec_of_framed hf with ⟨_, hu, _⟩ | ⟨_, hu, hl, _⟩ | ⟨_, hu, _, hc, _⟩ | ⟨_, hu, _, _, hx⟩ <;>
    cases (unescape_of_unescapes h).symm.trans hu
  · omega
  · omega
  · exact hx

end Framed

/-- Settles O38. -/
theorem bdecRefusesBadEscapesAndTruncation : Obligations.BdecRefusesBadEscapesAndTruncation :=
  fun _ inner hf => ⟨unescapes_or_stopsAt inner, fun _ => exec_bdec_of_stopsAt hf, fun _ => exec_bdec_of_truncated hf⟩

/-! ### Capacities (R207) -/

/-- What a string stands for is no longer than the string. -/
theorem length_le_of_unescapes {r o : Bytes} (h : Unescapes r o) : o.length ≤ r.length := by
  induction h with
  | nil => exact Nat.le_refl _
  | plain _ _ _ _ _ ih => exact Nat.succ_le_succ ih
  | flag _ _ _ ih | control _ _ _ ih => exact Nat.succ_le_succ (Nat.le_succ_of_le ih)

/-- Escaping at most doubles a string: a byte is one of the two escaped ones or neither. -/
theorem escape_length_le (s : Bytes) : (escape s).length ≤ 2 * s.length := by
  rw [escape_eq_flatMap]
  induction s with
  | nil => exact Nat.le_refl _
  | cons b s ih =>
    have hb : (escByte b).length ≤ 2 := by
      rw [escByte]
      split
      · exact Nat.le_refl 2
      · split <;> simp
    rw [List.flatMap_cons, List.length_append, List.length_cons]
    omega

theorem exec_esc_of_overflow {s : State} (h : s.caps.maxOut < (escape s.req.IN).length) :
    EndsFatally .esc s 0x0B (escape s.req.IN).length := by
  rcases execEsc_cases s with ⟨_, hx⟩ | ⟨hfits, _⟩
  · exact endsFatally (i := .esc) (e := .capacityExceeded _) rfl hx
  · exact absurd h (Nat.not_lt_of_le hfits)

theorem exec_unesc_of_overflow {s : State} {o : Bytes} (h : Unescapes s.req.IN o) (hover : s.caps.maxOut < o.length) :
    EndsFatally .unesc s 0x0B o.length := by
  rcases execUnesc_cases s with ⟨_, hu, _⟩ | ⟨_, hu, _, hx⟩ | ⟨_, hu, hfits, _⟩ <;>
    cases (unescape_of_unescapes h).symm.trans hu
  · exact endsFatally (i := .unesc) (e := .capacityExceeded _) rfl hx
  · exact absurd hover (Nat.not_lt_of_le hfits)

/-- Settles O39: the end by its operation's rule, the capacities by the length of the result against that of `IN`. -/
theorem resultsThatDoNotFitAreCapacityExceeded : Obligations.ResultsThatDoNotFitAreCapacityExceeded := by
  refine ⟨fun s hover => ?_, fun s o ho hover => ?_, fun s inner u hf hu hlen hover => ?_⟩
  · rw [← escape_eq_escaped] at hover ⊢
    have hle := escape_length_le s.req.IN
    exact ⟨exec_esc_of_overflow hover, fun hin => by omega⟩
  · have hle := length_le_of_unescapes ho
    exact ⟨exec_unesc_of_overflow ho hover, fun hin => by omega⟩
  · have hle := length_le_of_unescapes hu
    have hinner : s.req.IN.length = inner.length + 2 := by rw [hf.1]; simp
    exact ⟨exec_bdec_of_overflow hf hu hlen hover, fun hin => by omega⟩

/-! ### The fields by position (R72, R170) -/

/-- R44: a big-endian pair is the two bytes side by side. -/
theorem unbe16_eq_append (hi lo : Byte) : unbe16 hi lo = hi ++ lo := by
  apply BitVec.eq_of_toNat_eq
  have hhi := hi.isLt
  have hlo := lo.isLt
  rw [unbe16, BitVec.toNat_append, ← Nat.shiftLeft_add_eq_or_of_lt hlo, Nat.shiftLeft_eq, BitVec.toNat_ofNat]
  omega

theorem unbe16_toNat (hi lo : Byte) : (unbe16 hi lo).toNat = hi.toNat * 256 + lo.toNat := by
  have hhi := hi.isLt
  have hlo := lo.isLt
  rw [unbe16, BitVec.toNat_ofNat]
  omega

/-- The flags of BDEC as a number (R27, R170). -/
theorem bsjFlags_eq : ∀ agree len phone : Bool,
    ({ checksumVerdict true agree with lenOk := len, phoneOk := phone } : Conditions).flags =
      BitVec.ofNat 16 (1 + (if agree then 2 else 4) + (if len then 64 else 0) + (if phone then 128 else 0)) := by decide

theorem nibbles_all_le (bcd : Bytes) : (nibbles bcd).all (fun n => decide (n ≤ 9)) = decimalNibbles bcd := by
  induction bcd with
  | nil => rfl
  | cons b bcd ih =>
    rw [nibbles, List.all_cons, List.all_cons, ih, decimalNibbles, decimalNibbles, List.all_cons, Bool.and_assoc]

theorem nibbles_map_decDigit (bcd : Bytes) :
    (nibbles bcd).map decDigit = bcd.flatMap (fun b => [ascii (b.toNat / 16), ascii (b.toNat % 16)]) := by
  induction bcd with
  | nil => rfl
  | cons b bcd ih => rw [nibbles, List.map_cons, List.map_cons, ih]; rfl

/-- The six phone bytes of a layout in full. -/
theorem eq_of_length_six {l : Bytes} (h : l.length = 6) : ∃ a b c d e f, l = [a, b, c, d, e, f] := by
  match l, h with
  | [a, b, c, d, e, f], _ => exact ⟨a, b, c, d, e, f, rfl⟩

section Layout

variable {x : Layout} (hbcd : x.bcd.length = 6)
include hbcd

/-- A layout's bytes: twelve of header, then body flag, payload and checksum byte. -/
theorem layout_cut : bsjBcd x.bytes = x.bcd ∧ bsjBodyOf x.bytes = x.bflag :: x.payload ∧
    bsjWord x.bytes 0 = unbe16 x.m1 x.m0 ∧ bsjWord x.bytes 2 = unbe16 x.l1 x.l0 ∧
    bsjWord x.bytes 10 = unbe16 x.s1 x.s0 := by
  obtain ⟨m1, m0, l1, l0, bcd, s1, s0, bflag, payload, ck⟩ := x
  obtain ⟨a, b, c, d, e, f, rfl⟩ := eq_of_length_six hbcd
  exact ⟨rfl, List.dropLast_concat, rfl, rfl, rfl⟩

theorem layout_length : x.bytes.length = x.payload.length + 14 := by
  simp [Layout.bytes, Layout.covered, hbcd]
  omega

omit hbcd in
/-- The checksum byte is the last, and the covered bytes are the rest. -/
theorem layout_checksum : x.bytes.getLastD 0 = x.ck ∧ x.bytes.dropLast = x.covered := by
  rw [Layout.bytes]
  exact ⟨by simp, List.dropLast_concat⟩

/-- What BDEC answers of a layout (R170, R173, R174). -/
theorem bsjDecoded_layout : bsjDecoded x.bytes = { Response.cleared with
    FLAGS := BitVec.ofNat 16 (1 + (if x.ck = xor8 x.covered then 2 else 4) +
      (if x.l1.toNat * 256 + x.l0.toNat = x.payload.length + 1 then 64 else 0) +
      (if decimalNibbles x.bcd then 128 else 0))
    MSGID := x.m1 ++ x.m0
    LENW := x.l1 ++ x.l0
    SERIAL := x.s1 ++ x.s0
    BCD := x.bcd
    BFLAG := x.bflag
    OUT := x.payload
    PHONE := if decimalNibbles x.bcd then x.bcd.flatMap (fun b => [ascii (b.toNat / 16), ascii (b.toNat % 16)]) else []
    CKR := x.ck
    CKC := xor8 x.covered } := by
  obtain ⟨hcut, hbody, hmsg, hlen, hser⟩ := layout_cut hbcd
  obtain ⟨hck, hcov⟩ := layout_checksum (x := x)
  have hphone : bsjPhoneOk x.bytes = decimalNibbles x.bcd := by rw [bsjPhoneOk, hcut, nibbles_all_le]
  have hflags : (bsjConditions x.bytes).flags = _ := bsjFlags_eq _ _ _
  rw [bsjDecoded, hflags, hphone, hcut, hbody, hmsg, hlen, hser, hck, hcov, nibbles_map_decDigit, unbe16_toNat,
    unbe16_eq_append, unbe16_eq_append, unbe16_eq_append]
  simp only [beq_iff_eq, List.length_cons]
  rfl

/-- BDEC of a framed layout whose payload fits. -/
theorem exec_bdec_of_layout {s : State} {inner : Bytes} (hf : Framed s.req.IN inner) (hu : Unescapes inner x.bytes)
    (hfits : x.payload.length ≤ s.caps.maxOut) : exec .bdec s = .next { s with resp := bsjDecoded x.bytes } := by
  have hlen := layout_length hbcd
  exact exec_bdec_of_fits hf hu (by omega) (by omega)

end Layout

/-- Settles O36. -/
theorem bdecReportsTheFieldsByPosition : Obligations.BdecReportsTheFieldsByPosition := by
  refine ⟨by decide, fun s inner x hf hu hbcd hfits => ⟨xor8 x.covered, isByteXor_xor8 _, ?_⟩⟩
  rw [exec_bdec_of_layout hbcd hf hu hfits, bsjDecoded_layout hbcd]

/-! ### BDEC of the encoder's frame (R175) -/

/-- The layout of the string BENC escapes. -/
def encoderLayout (cmd : Bytes) (phone : List Nat) (serial : Nat) : Layout where
  m1 := 0x83
  m0 := 0x00
  l1 := BitVec.ofNat 8 ((cmd.length + 1) / 256)
  l0 := BitVec.ofNat 8 ((cmd.length + 1) % 256)
  bcd := bcdOf (padded phone)
  s1 := BitVec.ofNat 8 (serial / 256)
  s0 := BitVec.ofNat 8 (serial % 256)
  bflag := 0x00
  payload := cmd
  ck := xor8 (bsjUnescaped cmd phone serial)

theorem encoderLayout_covered (cmd : Bytes) (phone : List Nat) (serial : Nat) :
    (encoderLayout cmd phone serial).covered = bsjUnescaped cmd phone serial := rfl

theorem bsjChecked_eq_bytes {cmd phn : Bytes} {phone : List Nat} (h : PhoneDigits phn phone) (serial : Nat) :
    bsjChecked cmd phn serial = (encoderLayout cmd phone serial).bytes := by
  rw [bsjChecked, bsjCovered_eq h]
  rfl

/-- A 16-bit number comes back from its two bytes. -/
theorem unbe16_be16 {n : Nat} (h : n ≤ 65535) :
    (BitVec.ofNat 8 (n / 256)).toNat * 256 + (BitVec.ofNat 8 (n % 256)).toNat = n := by
  rw [BitVec.toNat_ofNat, BitVec.toNat_ofNat]
  omega

theorem append_be16 {n : Nat} (h : n ≤ 65535) :
    BitVec.ofNat 8 (n / 256) ++ BitVec.ofNat 8 (n % 256) = (BitVec.ofNat 16 n : Half) := by
  rw [← unbe16_eq_append, unbe16, unbe16_be16 h]

/-- The packed digits of a padded phone number, read back. -/
theorem bcdOf_padded {phone : List Nat} (hlen : phone.length ≤ 12) (hlt : ∀ d ∈ phone, d < 10) :
    decimalNibbles (bcdOf (padded phone)) = true ∧
    (bcdOf (padded phone)).flatMap (fun b => [ascii (b.toNat / 16), ascii (b.toNat % 16)]) = (padded phone).map ascii := by
  have hnib : nibbles (bcdOf (padded phone)) = padded phone := by
    rw [← packBcd_padPhone ⟨rfl, hlen, hlt⟩, padPhone_map_ascii]
    exact nibbles_packBcd _ (padded_lt hlt) (by rw [padded_length hlen])
  rw [← nibbles_all_le, ← nibbles_map_decDigit, hnib]
  exact ⟨List.all_eq_true.2 fun d hd => decide_eq_true (Nat.le_of_lt_succ (padded_lt hlt d hd)), rfl⟩

theorem bcdOf_length (p : List Nat) : (bcdOf p).length = 6 := rfl

/-- The decoder's answer to the encoder's string. -/
theorem bsjDecoded_encoderLayout {cmd : Bytes} {phone : List Nat} {serial : Nat} (hcmd : cmd.length + 1 ≤ 65535)
    (hserial : serial ≤ 65535) (hlen : phone.length ≤ 12) (hlt : ∀ d ∈ phone, d < 10) :
    bsjDecoded (encoderLayout cmd phone serial).bytes = { Response.cleared with
      FLAGS := 0x00C3
      MSGID := 0x8300
      LENW := BitVec.ofNat 16 (cmd.length + 1)
      SERIAL := BitVec.ofNat 16 serial
      BCD := bcdOf (padded phone)
      BFLAG := 0x00
      OUT := cmd
      PHONE := (padded phone).map ascii
      CKR := xor8 (bsjUnescaped cmd phone serial)
      CKC := xor8 (bsjUnescaped cmd phone serial) } := by
  obtain ⟨hdec, hphone⟩ := bcdOf_padded hlen hlt
  rw [bsjDecoded_layout (bcdOf_length _), encoderLayout_covered]
  simp only [encoderLayout, hdec, hphone, unbe16_be16 hcmd, append_be16 hcmd, append_be16 hserial, if_true]
  rfl

/-- The response after a fatal result has its code. -/
theorem STATUS_of_endsFatally {i : Instr} {s t : State} {code : Byte} {n : Nat} (he : EndsFatally i s code n)
    (h : exec i s = .next t) : t.resp.STATUS = code := by
  obtain ⟨w, _, hx⟩ := he
  cases next_inj (hx.symm.trans h)
  rfl

/-- Settles O40: the frame carries the layout of the operands, and the command fits `OUT` because the frame does. -/
theorem bsjFramesDecodeToTheirOperands : Obligations.BsjFramesDecodeToTheirOperands := by
  intro s t phone serial hacc h hok
  rcases exec_benc_of_accepts hacc with ⟨_, hfatal⟩ | ⟨hfits, hx⟩
  · rw [STATUS_of_endsFatally hfatal h] at hok
    exact absurd hok (by decide)
  cases next_inj (hx.symm.trans h)
  obtain ⟨hphn, ⟨_, hserial⟩, hcmd⟩ := hacc
  have hchecked := bsjChecked_eq_bytes (cmd := s.req.IN) hphn serial
  have hframe : bsjFrame s.req.IN s.req.PHN serial =
      [0x7E] ++ escape (encoderLayout s.req.IN phone serial).bytes ++ [0x7E] := by
    rw [bsjFrame_eq_flagged, hchecked]
  have hpayload : s.req.IN.length ≤ s.caps.maxOut := by
    have hlen := layout_length (x := encoderLayout s.req.IN phone serial) (bcdOf_length _)
    rw [hframe, List.length_append, List.length_append, escape_length, hlen] at hfits
    simp only [encoderLayout] at hfits
    omega
  have hbdec := exec_bdec_of_layout (x := encoderLayout s.req.IN phone serial) (bcdOf_length _)
    (s := feedBack { s with resp := bsjEncoded s.req.IN s.req.PHN serial }) ⟨hframe, not_mem_escape _⟩
    (unescapes_escape _) hpayload
  rw [hbdec, bsjDecoded_encoderLayout hcmd hserial hphn.2.1 hphn.2.2, ← packBcd_padPhone hphn, ← bsjCovered_eq hphn]
  rfl

/-! ### One replaced byte (R175) -/

/-- The last byte is the exclusive or of the rest exactly when the whole string has exclusive or 0. -/
theorem last_eq_xor8_iff {u : Bytes} (h : u ≠ []) : u.getLastD 0 = xor8 u.dropLast ↔ xor8 u = 0 := by
  have hlast : u.getLastD 0 = u.getLast h := by rw [List.getLastD_eq_getLast?, List.getLast?_eq_getLast_of_ne_nil h]; rfl
  have hu : xor8 u = xor8 u.dropLast ^^^ u.getLast h := by
    conv_lhs => rw [← List.dropLast_concat_getLast h, xor8_append]
    rw [xor8_cons]
    exact congrArg (xor8 u.dropLast ^^^ ·) (BitVec.xor_zero)
  rw [hlast, hu]
  exact eq_comm.trans BitVec.xor_eq_zero_iff.symm

/-- The checksum flags of BDEC's answer. -/
theorem bsjDecoded_verdict (u : Bytes) : (bsjDecoded u).FLAGS.getLsbD 0 = true ∧
    (bsjDecoded u).FLAGS.getLsbD 1 = (u.getLastD 0 == xor8 u.dropLast) ∧
    (bsjDecoded u).FLAGS.getLsbD 2 = !(u.getLastD 0 == xor8 u.dropLast) :=
  ⟨(BitVec.getLsbD_eq_getElem (by decide)).trans (flags_ckFound (bsjConditions u)),
   (BitVec.getLsbD_eq_getElem (by decide)).trans (flags_ckValid (bsjConditions u)),
   (BitVec.getLsbD_eq_getElem (by decide)).trans (flags_ckMismatch (bsjConditions u))⟩

/-- What a BDEC without a fatal result has found and answered. -/
theorem bdec_answer {s t : State} {inner u : Bytes} (hf : Framed s.req.IN inner) (hu : Unescapes inner u)
    (h : exec .bdec s = .next t) (hok : t.resp.STATUS = 0) :
    14 ≤ u.length ∧ u.length - 14 ≤ s.caps.maxOut ∧ t.resp = bsjDecoded u := by
  have hcode {code : Byte} {n : Nat} (he : EndsFatally .bdec s code n) : code = 0 := STATUS_of_endsFatally he h ▸ hok
  by_cases hlen : 14 ≤ u.length
  · by_cases hfits : u.length - 14 ≤ s.caps.maxOut
    · cases next_inj ((exec_bdec_of_fits hf hu hlen hfits).symm.trans h)
      exact ⟨hlen, hfits, rfl⟩
    · exact absurd (hcode (exec_bdec_of_overflow hf hu hlen (Nat.lt_of_not_le hfits))) (by decide)
  · exact absurd (hcode (exec_bdec_of_truncated hf hu (Nat.lt_of_not_le hlen))) (by decide)

/-- An escaped string between two flag bytes is framed. -/
theorem framed_escaped (u : Bytes) : Framed ([0x7E] ++ escaped u ++ [0x7E]) (escape u) :=
  ⟨by rw [escape_eq_escaped], not_mem_escape u⟩

/-- Settles O41: the exclusive or of the whole string was 0, and is not after one byte has changed. -/
theorem bdecDetectsOneCorruptedByte : Obligations.BdecDetectsOneCorruptedByte := by
  intro s t p q x y hin hxy h hok hvalid
  obtain ⟨hlen, hfits, hresp⟩ := bdec_answer (hin ▸ framed_escaped (p ++ x :: q)) (unescapes_escape _) h hok
  have hsame : (p ++ y :: q).length = (p ++ x :: q).length := by simp
  have hzero : xor8 (p ++ x :: q) = 0 := by
    rw [hresp, (bsjDecoded_verdict _).2.1] at hvalid
    exact (last_eq_xor8_iff (by simp)).1 (eq_of_beq hvalid)
  have hbad : ((p ++ y :: q).getLastD 0 == xor8 (p ++ y :: q).dropLast) = false :=
    beq_false_of_ne fun e => xor8_replace_ne hxy p q (((last_eq_xor8_iff (by simp)).1 e).trans hzero.symm)
  obtain ⟨hfound, hnot, hmismatch⟩ := bsjDecoded_verdict (p ++ y :: q)
  rw [hbad] at hnot hmismatch
  exact ⟨_, exec_bdec_of_fits (framed_escaped _) (unescapes_escape _) (hsame ▸ hlen) (hsame ▸ hfits), rfl, hfound, hnot,
    hmismatch⟩

end Sys2Proof.Machine
